-- ==== Sys2Proof/Word.lean ====
section
/-! DEFINITION. The two widths of the machine: the 16-bit word and the 8-bit byte (R8 of 00_scope.md). -/

namespace Sys2Proof

/-- A word: "a 16-bit unsigned integer" (R8); addresses are words too (R50). -/
abbrev Word := BitVec 16

/-- A byte: an 8-bit unsigned integer (R8); the unit the Terminal carries. -/
abbrev Byte := BitVec 8

end Sys2Proof
end

