-- ==== Sys2Proof/Syntax.lean ====
section
/-! DEFINITION. The instructions: one constructor per row of spec/opcode_table.json (R86 of 30_encoding.md; the
form TRAP is split by its vector as the table splits it, R155). Operands are the decoded fields, unextended. -/

namespace Sys2Proof

/-- The eight general registers R0 to R7 (R20). A 3-bit field names exactly one of them (R82). -/
inductive Reg where
  | r0 | r1 | r2 | r3 | r4 | r5 | r6 | r7
deriving DecidableEq, Repr

/-- The decoded instruction forms. Bits that a form ignores are no operand of it (R85). -/
inductive Instr where
  /-- BR: condition bits n, z, p (bits 11, 10, 9) as one field, and PCoffset9 (R146). -/
  | br (condField : BitVec 3) (pcOffset9 : BitVec 9)
  /-- ADD DR,SR1,SR2 (R121). -/
  | addReg (dr sr1 sr2 : Reg)
  /-- ADD DR,SR1,#imm5 (R122). -/
  | addImm (dr sr1 : Reg) (imm5 : BitVec 5)
  /-- LD DR,#off9 (R131). -/
  | ld (dr : Reg) (pcOffset9 : BitVec 9)
  /-- ST SR,#off9 (R135). -/
  | st (sr : Reg) (pcOffset9 : BitVec 9)
  /-- JSR #off11 (R148). -/
  | jsr (pcOffset11 : BitVec 11)
  /-- JSRR BaseR (R149). -/
  | jsrr (baseR : Reg)
  /-- AND DR,SR1,SR2 (R123). -/
  | andReg (dr sr1 sr2 : Reg)
  /-- AND DR,SR1,#imm5 (R124). -/
  | andImm (dr sr1 : Reg) (imm5 : BitVec 5)
  /-- LDR DR,BaseR,#off6 (R133). -/
  | ldr (dr baseR : Reg) (offset6 : BitVec 6)
  /-- STR SR,BaseR,#off6 (R137). -/
  | str (sr baseR : Reg) (offset6 : BitVec 6)
  /-- RTI (R163). -/
  | rti
  /-- NOT DR,SR (R125). -/
  | notReg (dr sr : Reg)
  /-- LDI DR,#off9 (R132). -/
  | ldi (dr : Reg) (pcOffset9 : BitVec 9)
  /-- STI SR,#off9 (R136). -/
  | sti (sr : Reg) (pcOffset9 : BitVec 9)
  /-- JMP BaseR (R147). -/
  | jmp (baseR : Reg)
  /-- RES (R164). -/
  | res
  /-- LEA DR,#off9 (R134). -/
  | lea (dr : Reg) (pcOffset9 : BitVec 9)
  /-- TRAP x20, GETC (R156). -/
  | trapGetc
  /-- TRAP x21, OUT (R157). -/
  | trapOut
  /-- TRAP x22, PUTS (R158). -/
  | trapPuts
  /-- TRAP x23, IN (R159). -/
  | trapIn
  /-- TRAP x24, PUTSP (R160). -/
  | trapPutsp
  /-- TRAP x25, HALT (R161). -/
  | trapHalt
  /-- TRAP with a vector outside 0x20 to 0x25 (R162). -/
  | trapUndefined (trapvect8 : BitVec 8)
deriving DecidableEq, Repr

end Sys2Proof
end

