-- ==== Sys2Proof/Decode.lean ====
section
/-! DEFINITION. The decoder of R86 of 30_encoding.md (total: every one of the 65,536 words is an instruction, none is
refused) and, after it, the encoder written from the formats of R84. Field positions that rest on the spec's general
knowledge are named in log 9; ignored bits in log 10 and log 11. -/

namespace Sys2Proof

/-- The sixteen opcodes in the order of R81. -/
inductive Opcode where
  | br | add | ld | st | jsr | and | ldr | str | rti | not | ldi | sti | jmp | res | lea | trap
deriving DecidableEq, Repr

/-- The opcode map of R81: the value of `instr[15:12]` selects the row (DEDUCED by the spec, D1, log 22).
A 4-bit value is below 16, so the last arm is 15 and no other value. -/
def opcodeOfBits (b : BitVec 4) : Opcode :=
  match b.toNat with
  | 0 => .br
  | 1 => .add
  | 2 => .ld
  | 3 => .st
  | 4 => .jsr
  | 5 => .and
  | 6 => .ldr
  | 7 => .str
  | 8 => .rti
  | 9 => .not
  | 10 => .ldi
  | 11 => .sti
  | 12 => .jmp
  | 13 => .res
  | 14 => .lea
  | _ => .trap

/-- The register a 3-bit field names: value k names Rk (R20, R82). A 3-bit value is below 8, so
the last arm is 7 and no other value. -/
def regOfBits (b : BitVec 3) : Reg :=
  match b.toNat with
  | 0 => .r0
  | 1 => .r1
  | 2 => .r2
  | 3 => .r3
  | 4 => .r4
  | 5 => .r5
  | 6 => .r6
  | _ => .r7

/-- `instr[15:12]` (R80). -/
def opcodeField (w : Word) : BitVec 4 := w.extractLsb' 12 4

/-- The register field at bits 11:9: DR, and SR of the stores (R82, R83). -/
def regField11 (w : Word) : Reg := regOfBits (w.extractLsb' 9 3)

/-- The register field at bits 8:6: SR1, BaseR, and SR of NOT (R82, R83; PRESUMED by the spec for BaseR and NOT, log 9). -/
def regField8 (w : Word) : Reg := regOfBits (w.extractLsb' 6 3)

/-- The register field at bits 2:0: SR2 (R82). -/
def regField2 (w : Word) : Reg := regOfBits (w.extractLsb' 0 3)

/-- The immediate flag, bit 5 (R82). -/
def immFlag (w : Word) : Bool := w.getLsbD 5

/-- The long flag, bit 11 (R82). -/
def longFlag (w : Word) : Bool := w.getLsbD 11

/-- imm5, bits 4:0 (R83). -/
def imm5Field (w : Word) : BitVec 5 := w.extractLsb' 0 5

/-- offset6, bits 5:0 (R83; PRESUMED by the spec, log 9). -/
def offset6Field (w : Word) : BitVec 6 := w.extractLsb' 0 6

/-- PCoffset9, bits 8:0 (R83). -/
def pcOffset9Field (w : Word) : BitVec 9 := w.extractLsb' 0 9

/-- PCoffset11, bits 10:0 (R83). -/
def pcOffset11Field (w : Word) : BitVec 11 := w.extractLsb' 0 11

/-- The condition bits n, z, p of BR, bits 11:9 (R83; log 9). -/
def condBitsField (w : Word) : BitVec 3 := w.extractLsb' 9 3

/-- trapvect8, bits 7:0 (R82). -/
def trapVectorField (w : Word) : BitVec 8 := w.extractLsb' 0 8

/-- The second decoding of TRAP, on its vector (R155): six routines and the undefined rest (R162). -/
def decodeTrap (v : BitVec 8) : Instr :=
  if v = 0x20#8 then .trapGetc
  else if v = 0x21#8 then .trapOut
  else if v = 0x22#8 then .trapPuts
  else if v = 0x23#8 then .trapIn
  else if v = 0x24#8 then .trapPutsp
  else if v = 0x25#8 then .trapHalt
  else .trapUndefined v

/-- `Decode` of R86: total on words, no dependence on state or mode. -/
def decode (w : Word) : Instr :=
  match opcodeOfBits (opcodeField w) with
  | .br => .br (condBitsField w) (pcOffset9Field w)
  | .add =>
    if immFlag w then .addImm (regField11 w) (regField8 w) (imm5Field w)
    else .addReg (regField11 w) (regField8 w) (regField2 w)
  | .ld => .ld (regField11 w) (pcOffset9Field w)
  | .st => .st (regField11 w) (pcOffset9Field w)
  | .jsr => if longFlag w then .jsr (pcOffset11Field w) else .jsrr (regField8 w)
  | .and =>
    if immFlag w then .andImm (regField11 w) (regField8 w) (imm5Field w)
    else .andReg (regField11 w) (regField8 w) (regField2 w)
  | .ldr => .ldr (regField11 w) (regField8 w) (offset6Field w)
  | .str => .str (regField11 w) (regField8 w) (offset6Field w)
  | .rti => .rti
  | .not => .notReg (regField11 w) (regField8 w)
  | .ldi => .ldi (regField11 w) (pcOffset9Field w)
  | .sti => .sti (regField11 w) (pcOffset9Field w)
  | .jmp => .jmp (regField8 w)
  | .res => .res
  | .lea => .lea (regField11 w) (pcOffset9Field w)
  | .trap => decodeTrap (trapVectorField w)

/-- The word of a table row: bit 0 of `n` is bit 0 of the one instruction word (R80), the bits from `nbits` up are 0. -/
def tableWord (nbits n : Nat) : Word := BitVec.ofNat 16 (n % 2 ^ nbits)

/-- The host's view of the decoder. Instructions are one 16-bit word, so a longer row would be none of this machine's
(R80, R90); no word is refused (R86; log 23). -/
def decodeTableWord (nbits w : Nat) : Option Instr :=
  if nbits ≤ 16 then some (decode (tableWord nbits w)) else none

/-- The number of a register, as its 3-bit field (R20). -/
def regBits (r : Reg) : BitVec 3 :=
  match r with
  | .r0 => 0
  | .r1 => 1
  | .r2 => 2
  | .r3 => 3
  | .r4 => 4
  | .r5 => 5
  | .r6 => 6
  | .r7 => 7

/-- A field at its place in a word: its bit 0 at bit `lo` (R7, R84). -/
def place {n : Nat} (v : BitVec n) (lo : Nat) : Word := v.setWidth 16 <<< lo

/-- The word of an instruction, from the formats of R84, with the ignored bits at the values R84 calls canonical
(PRESUMED by the spec, G6, log 10: zeros, and ones in bits 5:0 of NOT). -/
def encode (i : Instr) : Word :=
  match i with
  | .br nzp off => place 0b0000#4 12 ||| place nzp 9 ||| place off 0
  | .addReg dr sr1 sr2 =>
    place 0b0001#4 12 ||| place (regBits dr) 9 ||| place (regBits sr1) 6 ||| place 0b0#1 5 ||| place (regBits sr2) 0
  | .addImm dr sr1 imm =>
    place 0b0001#4 12 ||| place (regBits dr) 9 ||| place (regBits sr1) 6 ||| place 0b1#1 5 ||| place imm 0
  | .ld dr off => place 0b0010#4 12 ||| place (regBits dr) 9 ||| place off 0
  | .st sr off => place 0b0011#4 12 ||| place (regBits sr) 9 ||| place off 0
  | .jsr off => place 0b0100#4 12 ||| place 0b1#1 11 ||| place off 0
  | .jsrr base => place 0b0100#4 12 ||| place 0b0#1 11 ||| place (regBits base) 6
  | .andReg dr sr1 sr2 =>
    place 0b0101#4 12 ||| place (regBits dr) 9 ||| place (regBits sr1) 6 ||| place 0b0#1 5 ||| place (regBits sr2) 0
  | .andImm dr sr1 imm =>
    place 0b0101#4 12 ||| place (regBits dr) 9 ||| place (regBits sr1) 6 ||| place 0b1#1 5 ||| place imm 0
  | .ldr dr base off => place 0b0110#4 12 ||| place (regBits dr) 9 ||| place (regBits base) 6 ||| place off 0
  | .str sr base off => place 0b0111#4 12 ||| place (regBits sr) 9 ||| place (regBits base) 6 ||| place off 0
  | .rti => place 0b1000#4 12
  | .notReg dr sr => place 0b1001#4 12 ||| place (regBits dr) 9 ||| place (regBits sr) 6 ||| place 0b111111#6 0
  | .ldi dr off => place 0b1010#4 12 ||| place (regBits dr) 9 ||| place off 0
  | .sti sr off => place 0b1011#4 12 ||| place (regBits sr) 9 ||| place off 0
  | .jmp base => place 0b1100#4 12 ||| place (regBits base) 6
  | .res => place 0b1101#4 12
  | .lea dr off => place 0b1110#4 12 ||| place (regBits dr) 9 ||| place off 0
  | .trapGetc => place 0b1111#4 12 ||| place 0x20#8 0
  | .trapOut => place 0b1111#4 12 ||| place 0x21#8 0
  | .trapPuts => place 0b1111#4 12 ||| place 0x22#8 0
  | .trapIn => place 0b1111#4 12 ||| place 0x23#8 0
  | .trapPutsp => place 0b1111#4 12 ||| place 0x24#8 0
  | .trapHalt => place 0b1111#4 12 ||| place 0x25#8 0
  | .trapUndefined v => place 0b1111#4 12 ||| place v 0

end Sys2Proof
end

