-- ==== Sys2Proof/Config.lean ====
section
/-! DEFINITION. The open parameters of R6 of 00_scope.md that are fixed for one machine: the two byte strings the
spec gives no text for. They are opaque: no proof can see a value of them (log 8). The open parameter IMAGE is an
argument of `State.boot`, and the Terminal environment stands in State (log 2, log 3, log 4). -/

namespace Sys2Proof

/-- HALT_MARKER: the bytes HALT writes before the engine stops (R161, D11, U7). Open: any list of bytes. -/
opaque Config.haltMarker : List Byte

/-- IN_PROMPT: the bytes IN writes before it waits (R159, D12, U8). Open: any list of bytes. -/
opaque Config.inPrompt : List Byte

end Sys2Proof
end

