-- ==== Sys2Proof/Machine/Bits.lean ====
section
/-! DEFINITION. The bit-field helpers of R8 and R9 of 00_scope.md: sign extension, zero extension, the bytes of a word. -/

namespace Sys2Proof.Machine

/-- `sext_N` of R9: bit N-1 is copied into every bit above it. -/
def sext {n : Nat} (v : BitVec n) : Word := v.signExtend 16

/-- `zext_16` of R9: the word with the byte's value, high byte zero. -/
def zext16 (b : Byte) : Word := b.setWidth 16

/-- Bits 7:0 of a word (R57). -/
def lowByte (w : Word) : Byte := w.extractLsb' 0 8

/-- Bits 15:8 of a word (R57). -/
def highByte (w : Word) : Byte := w.extractLsb' 8 8

end Sys2Proof.Machine
end

