-- ==== Sys2Proof/Machine/Params.lean ====
section
/-! DEFINITION. The fixed parameters of R6 of 00_scope.md: addresses, flag values and the start address. Their
literals are the document's and unaudited (D26, log 22). -/

namespace Sys2Proof.Machine

/-- PC_START, the address of the first instruction fetched after reset (R36, R60). -/
def pcStart : Word := 0x3000#16

/-- COND_START = ZRO (R36). -/
def condStart : Word := 0b010#16

/-- The address of KBSR, the keyboard status register (R29, R60). -/
def kbsrAddr : Word := 0xFE00#16

/-- The address of KBDR, the keyboard data register (R30, R60). -/
def kbdrAddr : Word := 0xFE02#16

/-- KBSR_READY: bit 15, a key was pending (R29). -/
def kbsrReady : Word := 0x8000#16

/-- FL_NEG, bit 2 of COND (R24). -/
def flagNeg : Word := 0b100#16

/-- FL_ZRO, bit 1 of COND (R24). -/
def flagZro : Word := 0b010#16

/-- FL_POS, bit 0 of COND (R24). -/
def flagPos : Word := 0b001#16

/-- The number of words of memory (R28): the length of one lap of the address ring (R67). -/
def memoryWords : Nat := 65536

end Sys2Proof.Machine
end

