-- ==== Sys2Proof/Machine/State.lean ====
section
/-! DEFINITION. The state of the machine as plain data: everything R20 to R36 of 10_state.md gives it, the Terminal
environment of R34, and the model's two own fields, the host script and the routine under way (log 4, log 6). The
device registers KBSR and KBDR are the memory words at 0xFE00 and 0xFE02 and have no other home (R29, R30). -/

namespace Sys2Proof.Machine

/-- The general registers R0 to R7, 16 bits each (R20). -/
structure RegFile where
  r0 : Word
  r1 : Word
  r2 : Word
  r3 : Word
  r4 : Word
  r5 : Word
  r6 : Word
  r7 : Word
deriving DecidableEq, Repr

/-- The three fatal conditions (R180). -/
inductive FatalCondition where
  /-- Raised by RTI and RES (R181). -/
  | unimplementedOpcode
  /-- Raised by TRAP with an undefined vector (R182). -/
  | malformedInstruction
  /-- Raised by a Terminal read or write that the environment fails (R183). -/
  | ioFailure
deriving DecidableEq, Repr

/-- The run state of the engine (R31). -/
inductive RunState where
  | running
  | halted
  | faulted (c : FatalCondition)
deriving DecidableEq, Repr

/-- What the host does at one Terminal operation, or in one step that waits for a byte: the bytes it appends to the
pending input just before it, and whether it makes the operation fail (R34; DESIGN CHOICE, log 4). A wait has no failure
to make (R212; log 6). -/
structure HostMove where
  arrive : List Byte
  fails : Bool
deriving DecidableEq, Repr

/-- The routine of a TRAP the engine is still inside, where a step of the model ended within it (R114, D18; DESIGN
CHOICE, log 6 and log 7). -/
inductive Routine where
  /-- GETC holds for an input byte (R156). -/
  | getc
  /-- IN has written its prompt and holds for an input byte (R159). -/
  | inn
  /-- PUTS goes on reading at this address (R158). -/
  | puts (next : Word)
  /-- PUTSP goes on reading at this address (R160). -/
  | putsp (next : Word)
deriving DecidableEq, Repr

/-- Memory M (R28): the words that differ from what an unlisted address reads as, each with its address, addresses
strictly rising (the form is `Memory.wf` of Machine/Ops.lean). One cell is one 16-bit word, the smallest addressable
unit (R50, R57; DESIGN CHOICE, log 1). -/
abbrev Memory := List (Nat × Word)

/-- The state of the machine and of the environment it talks to. -/
structure State where
  /-- R0 to R7 (R20). -/
  regs : RegFile
  /-- The program counter (R23). -/
  pc : Word
  /-- The condition-flag slot COND (R24). -/
  cond : Word
  /-- The memory array M, with KBSR and KBDR in it (R28, R29, R30). -/
  mem : Memory
  /-- The run state (R31). -/
  run : RunState
  /-- `in_q`, the pending input, oldest byte first (R34). -/
  inQ : List Byte
  /-- `out`, all bytes written so far, oldest first (R34). -/
  out : List Byte
  /-- The model's own field: what the host will do at the coming Terminal operations and in the steps that
  wait for a byte; after its end nothing arrives and nothing fails (log 4). -/
  host : List HostMove
  /-- The model's own field: the trap routine under way, none between instructions (log 6). -/
  routine : Option Routine
deriving DecidableEq, Repr

/-- Why a step stops. Both are raised by `step` alone: no meaning of an instruction ends in a fault. -/
inductive Fault where
  /-- Raised by `step` when `run` is Halted, which has no step (R113). Safe: the machine does nothing there either. -/
  | halted
  /-- Raised by `step` when `run` is Faulted(c), which has no step (R113, R185). Safe: as above. -/
  | fatal (c : FatalCondition)
deriving DecidableEq, Repr

/-- Why the model gives no meaning. -/
inductive Refusal where
  /-- Raised by an arm of `exec` whose instruction has no meaning yet. Safe. No arm is in that case. -/
  | notModelled (mnemonic : String)
deriving DecidableEq, Repr

/-- The machine right after reset (R36, R210), with nothing loaded, no input pending and a host that does nothing
(log 2, log 3). `State.boot` of Machine/Ops.lean gives it an image, an input and a host script. -/
def State.reset : State where
  regs := ⟨0, 0, 0, 0, 0, 0, 0, 0⟩
  pc := pcStart
  cond := condStart
  mem := []
  run := .running
  inQ := []
  out := []
  host := []
  routine := none

end Sys2Proof.Machine
end

