-- ==== Sys2Proof/Machine/Ops.lean ====
section
/-! DEFINITION. The named operations: registers (R20, R21), memory (R28, R51 to R55), the Terminal (R13 to R15, R34),
raising a fatal condition (R12, R184), the link write of the calls and of TRAP (R22, R187), the fetch (R110, R111) and
the host's side of the machine (R210, R212).

There is no return from a fatal condition (R185) and no return-from-trap instruction (R188), so no operation for one. -/

namespace Sys2Proof.Machine

/-! ### Registers -/

/-- Read a general register; total (R21). -/
def RegFile.get (f : RegFile) (r : Reg) : Word :=
  match r with
  | .r0 => f.r0
  | .r1 => f.r1
  | .r2 => f.r2
  | .r3 => f.r3
  | .r4 => f.r4
  | .r5 => f.r5
  | .r6 => f.r6
  | .r7 => f.r7

/-- Write a general register; total, no register is hardwired (R20, R21). -/
def RegFile.set (f : RegFile) (r : Reg) (v : Word) : RegFile :=
  match r with
  | .r0 => { f with r0 := v }
  | .r1 => { f with r1 := v }
  | .r2 => { f with r2 := v }
  | .r3 => { f with r3 := v }
  | .r4 => { f with r4 := v }
  | .r5 => { f with r5 := v }
  | .r6 => { f with r6 := v }
  | .r7 => { f with r7 := v }

/-- `x[i]` (R10). -/
def State.reg (s : State) (r : Reg) : Word := s.regs.get r

/-- `x[i] <- v` (R10). -/
def State.setReg (s : State) (r : Reg) (v : Word) : State := { s with regs := s.regs.set r v }

/-- `pc <- target` (R10). -/
def State.setPc (s : State) (a : Word) : State := { s with pc := a }

/-! ### Memory -/

/-- What an address with no listed word reads as: memory is "zero-initialized at creation" and IMAGE is 0x0000 wherever
the loader wrote nothing (R6, R28). -/
def Memory.unlisted : Word := 0x0000#16

/-- The canonical form: addresses strictly rising and below 65,536, and no listed word equal to what an unlisted
address reads as. Equal memories are then equal lists (log 1). -/
abbrev Memory.wf (m : Memory) : Prop :=
  m.Pairwise (fun c d => c.1 < d.1) ∧ ∀ c ∈ m, c.1 < memoryWords ∧ c.2 ≠ Memory.unlisted

/-- The word at key `k`. -/
def Memory.readAt (m : Memory) (k : Nat) : Word :=
  match m with
  | [] => Memory.unlisted
  | c :: rest => if c.1 = k then c.2 else Memory.readAt rest k

/-- `M[a]`, the raw array, no side effect (R10). -/
def Memory.read (m : Memory) (a : Word) : Word := m.readAt a.toNat

/-- Remove the word at key `k`. -/
def Memory.erase (m : Memory) (k : Nat) : Memory := m.filter (fun c => c.1 != k)

/-- Put a word with a new key in its place in the order. -/
def Memory.insert (m : Memory) (k : Nat) (v : Word) : Memory :=
  match m with
  | [] => [(k, v)]
  | c :: rest => if k < c.1 then (k, v) :: c :: rest else c :: Memory.insert rest k v

/-- `M[a] <- v` (R10, R54), keeping the canonical form. -/
def Memory.write (m : Memory) (a v : Word) : Memory :=
  if v = Memory.unlisted then m.erase a.toNat else (m.erase a.toNat).insert a.toNat v

/-- `M[a]` in a state. -/
def State.readWord (s : State) (a : Word) : Word := s.mem.read a

/-- `MemWrite(a, 1, v)` of R54: an unconditional store at every address, with no side effect, the device words
included (R55). -/
def memWrite (a v : Word) (s : State) : State := { s with mem := s.mem.write a v }

/-! ### How a statement of an instruction ends -/

/-- A statement of an instruction either completes, with a value and a state, or it is the last one of its step: a fatal
condition was raised, or the engine holds for input. Every write made before stays (R12, R114). -/
inductive Result (α : Type) where
  | done (a : α) (s : State)
  | stopped (s : State)

/-- The statements after `r`: they run only if `r` completed (R12). -/
def Result.andThen {α : Type} (r : Result α) (k : α → State → State) : State :=
  match r with
  | .done a s => k a s
  | .stopped s => s

/-- `raise c` of R12 and R184: the run state becomes Faulted(c) and nothing else is written, saved or redirected. The
caller ends the instruction there (log 5). -/
def raise (c : FatalCondition) (s : State) : State := { s with run := .faulted c }

/-- `halt` of R12. -/
def halt (s : State) : State := { s with run := .halted }

/-! ### The Terminal -/

/-- The host's move when its script says nothing: nothing arrives, nothing fails (DESIGN CHOICE, log 4). -/
def HostMove.quiet : HostMove := ⟨[], false⟩

/-- The host's move at the next Terminal operation, or in a step that waits for a byte (R34; log 4). -/
def State.nextMove (s : State) : HostMove := s.host.headD HostMove.quiet

/-- The host makes its move: its bytes join the tail of the pending input (R34). -/
def State.takeMove (s : State) : State :=
  { s with inQ := s.inQ ++ s.nextMove.arrive, host := s.host.tail }

/-- `TermPoll()` of R13: whether a byte is pending; consumes nothing and never fails (D10, log 16). -/
def termPoll (s : State) : Bool × State := (!s.takeMove.inQ.isEmpty, s.takeMove)

/-- How a `TermRead()` ends (R14). -/
inductive ReadOutcome where
  /-- The oldest pending byte, removed from the pending input. -/
  | byte (b : Byte) (s : State)
  /-- Nothing is pending: the engine holds. -/
  | hold (s : State)
  /-- The environment makes the operation fail. -/
  | failed (s : State)

/-- A `TermRead()` whose draw did not fail: the oldest pending byte, or the wait for one (R14). A wait that has begun
goes on with this and draws no failure again: "nothing else lifts the hold" but a byte (R14, R212; log 6). -/
def termAwait (s : State) : ReadOutcome :=
  match s.takeMove.inQ with
  | [] => .hold s.takeMove
  | b :: rest => .byte b { s.takeMove with inQ := rest }

/-- `TermRead()` of R14 and R34: the environment's one failure draw, then the byte or the wait. -/
def termRead (s : State) : ReadOutcome :=
  if s.nextMove.fails then .failed s.takeMove else termAwait s

/-- `TermWrite(b)` of R15 and R34: the byte joins the output, or the environment makes the operation fail. -/
def termWrite (b : Byte) (s : State) : Result Unit :=
  if s.nextMove.fails then .stopped (raise .ioFailure s.takeMove)
  else .done () { s.takeMove with out := s.takeMove.out ++ [b] }

/-- One `TermWrite` per byte, in order (R15). -/
def termWriteEach (bs : List Byte) (s : State) : Result Unit :=
  match bs with
  | [] => .done () s
  | b :: rest =>
    match termWrite b s with
    | .done _ t => termWriteEach rest t
    | .stopped t => .stopped t

/-- `for each byte q of bs in order: TermWrite(q)` (R159, R161). Where the host's script has ended, the writes are made
at once, so that a step can be evaluated though the bytes are an open parameter; `termWriteAll_eq` says it is the loop. -/
def termWriteAll (bs : List Byte) (s : State) : Result Unit :=
  match s.host with
  | [] => .done () { s with out := s.out ++ bs }
  | _ :: _ => termWriteEach bs s

/-! ### Reading memory -/

/-- `KbsrRefresh()` of R52. The byte is consumed (D7, log 12); a failing read leaves both words alone (R52, R184). -/
def kbsrRefresh (s : State) : Result Unit :=
  if (termPoll s).1 then
    match termRead (termPoll s).2 with
    | .byte b t => .done () (memWrite kbdrAddr (zext16 b) (memWrite kbsrAddr kbsrReady t))
    | .hold t => .stopped t
    | .failed t => .stopped (raise .ioFailure t)
  else .done () (memWrite kbsrAddr 0x0000#16 (termPoll s).2)

/-- `MemRead(a, 1)` of R51: every read the machine makes, for whatever purpose (R56). -/
def memRead (a : Word) (s : State) : Result Word :=
  if a = kbsrAddr then
    match kbsrRefresh s with
    | .done _ t => .done (t.readWord a) t
    | .stopped t => .stopped t
  else .done (s.readWord a) s

/-! ### Control -/

/-- `x[7] <- pc`: the incremented PC to the link register, without SetCC. The entry of JSR, JSRR and of every TRAP, and
all that a trap saves (R22, R148, R155, R187). -/
def link (s : State) : State := s.setReg .r7 s.pc

/-- The fetch of R110 and R111: an ordinary `MemRead` at the PC, then the increment, which wraps. If the read raises,
the PC is not incremented. -/
def fetch (s : State) : Result Word :=
  match memRead s.pc s with
  | .done w t => .done w (t.setPc (t.pc + 1))
  | .stopped t => .stopped t

/-! ### The host's side -/

/-- The loader's memory: the words of an image written, in order, into zero-initialized memory (R210). -/
def Memory.load (image : List (Word × Word)) : Memory :=
  image.foldl (fun m c => m.write c.1 c.2) []

/-- The reset state of R36 for any IMAGE, any pending input and any host script: reset with the three filled in by the
world outside (R210, R212; log 2, log 3). -/
def State.boot (image : List (Word × Word)) (input : List Byte) (script : List HostMove) : State :=
  { State.reset with mem := Memory.load image, inQ := input, host := script }

/-- The host appends input bytes between two steps (R34, R212). -/
def State.hostAppend (s : State) (bs : List Byte) : State := { s with inQ := s.inQ ++ bs }

end Sys2Proof.Machine
end

