-- ==== Sys2Proof/Machine/Flags.lean ====
section
/-! DEFINITION. The condition flags: `SetCC` of R25 of 10_state.md and the branch test of R146 of 43_control.md. -/

namespace Sys2Proof.Machine

/-- The value of COND for a register value: NEG if bit 15 is 1, ZRO if the value is 0, else POS (R25). -/
def condOf (v : Word) : Word :=
  if v.msb then flagNeg else if v = 0x0000#16 then flagZro else flagPos

/-- `SetCC(i)`: COND from the current value of Ri (R25). -/
def setCC (r : Reg) (s : State) : State := { s with cond := condOf (s.reg r) }

/-- `x[DR] <- v; SetCC(DR)`: the end of every flag-setting instruction (R25, R26). -/
def writeResult (dr : Reg) (v : Word) (s : State) : State := setCC dr (s.setReg dr v)

/-- The test of BR: `(instr[11:9] & cond[2:0]) != 0`, non-zero and not equal to 1 (R146, C5, log 15). -/
def branchTaken (condField : BitVec 3) (s : State) : Bool :=
  (condField &&& s.cond.extractLsb' 0 3) != 0#3

end Sys2Proof.Machine
end

