-- ==== Sys2Proof/Machine/Operands.lean ====
section
/-! DEFINITION. The operand forms: the addressing modes of R130 of 42_data_movement.md, the branch and call targets of
43_control.md and the immediates of R87 of 30_encoding.md. All sums wrap modulo 2^16 (R67). In every one `pc` is the
already incremented PC (R23). -/

namespace Sys2Proof.Machine

/-- PC-relative: `pc + sext_9(PCoffset9)` (R130; also the target of BR, R146, and the value of LEA, R134). -/
def pcRelative9 (pcOffset9 : BitVec 9) (s : State) : Word := s.pc + sext pcOffset9

/-- The target of JSR: `pc + sext_11(PCoffset11)` (R148). -/
def pcRelative11 (pcOffset11 : BitVec 11) (s : State) : Word := s.pc + sext pcOffset11

/-- Base plus offset: `x[BaseR] + sext_6(offset6)` (R130). The base register is not modified. -/
def basePlusOffset (baseR : Reg) (offset6 : BitVec 6) (s : State) : Word := s.reg baseR + sext offset6

/-- Indirect: the word read at the PC-relative address is the address; a read like any other (R130). -/
def indirect (pcOffset9 : BitVec 9) (s : State) : Result Word := memRead (pcRelative9 pcOffset9 s) s

end Sys2Proof.Machine
end

