-- ==== Sys2Proof/Machine/Control.lean ====
section
/-! DEFINITION. Control transfer, 43_control.md: BR, JMP, JSR, JSRR. No flags are written, no memory is accessed (R145). -/

namespace Sys2Proof.Machine

/-- BR, conditional branch (R146). -/
def execBr (condField : BitVec 3) (pcOffset9 : BitVec 9) (s : State) : Host.Outcome State Fault Refusal :=
  .next (if branchTaken condField s then s.setPc (pcRelative9 pcOffset9 s) else s)

/-- JMP, jump through a register (R147). -/
def execJmp (baseR : Reg) (s : State) : Host.Outcome State Fault Refusal :=
  .next (s.setPc (s.reg baseR))

/-- JSR, call PC-relative (R148). -/
def execJsr (pcOffset11 : BitVec 11) (s : State) : Host.Outcome State Fault Refusal :=
  .next ((link s).setPc (pcRelative11 pcOffset11 s))

/-- JSRR, call through a register: R7 is written first and BaseR read second, so `JSRR R7` goes to the next instruction
(R149, D6, log 14). -/
def execJsrr (baseR : Reg) (s : State) : Host.Outcome State Fault Refusal :=
  .next ((link s).setPc ((link s).reg baseR))

end Sys2Proof.Machine
end

