-- ==== Sys2Proof/Machine/DataMovement.lean ====
section
/-! DEFINITION. Data movement, 42_data_movement.md: LD, LDI, LDR, LEA, ST, STI, STR. Every read is a `memRead`, so at
0xFE00 it polls the keyboard and may raise IoFailure, and then nothing after it happens (R51, R184). -/

namespace Sys2Proof.Machine

/-- LD, load PC-relative (R131). -/
def execLd (dr : Reg) (pcOffset9 : BitVec 9) (s : State) : Host.Outcome State Fault Refusal :=
  .next ((memRead (pcRelative9 pcOffset9 s) s).andThen fun w t => writeResult dr w t)

/-- LDI, load indirect: the pointer, then the data (R132). -/
def execLdi (dr : Reg) (pcOffset9 : BitVec 9) (s : State) : Host.Outcome State Fault Refusal :=
  .next ((indirect pcOffset9 s).andThen fun ea t => (memRead ea t).andThen fun w u => writeResult dr w u)

/-- LDR, load base plus offset (R133). -/
def execLdr (dr baseR : Reg) (offset6 : BitVec 6) (s : State) : Host.Outcome State Fault Refusal :=
  .next ((memRead (basePlusOffset baseR offset6 s) s).andThen fun w t => writeResult dr w t)

/-- LEA, load effective address: no memory access (R134). -/
def execLea (dr : Reg) (pcOffset9 : BitVec 9) (s : State) : Host.Outcome State Fault Refusal :=
  .next (writeResult dr (pcRelative9 pcOffset9 s) s)

/-- ST, store PC-relative (R135). -/
def execSt (sr : Reg) (pcOffset9 : BitVec 9) (s : State) : Host.Outcome State Fault Refusal :=
  .next (memWrite (pcRelative9 pcOffset9 s) (s.reg sr) s)

/-- STI, store indirect: the pointer is read, then the word is written (R136). -/
def execSti (sr : Reg) (pcOffset9 : BitVec 9) (s : State) : Host.Outcome State Fault Refusal :=
  .next ((indirect pcOffset9 s).andThen fun ea t => memWrite ea (t.reg sr) t)

/-- STR, store base plus offset (R137). -/
def execStr (sr baseR : Reg) (offset6 : BitVec 6) (s : State) : Host.Outcome State Fault Refusal :=
  .next (memWrite (basePlusOffset baseR offset6 s) (s.reg sr) s)

end Sys2Proof.Machine
end

