-- ==== Sys2Proof/Machine/TrapSystem.lean ====
section
/-! DEFINITION. TRAP and its routines, and the unimplemented opcodes, 44_trap_system.md. Every TRAP writes R7 first
(R155); each routine runs inside its step. Where a routine cannot end in the step it began in (a read holds for input;
a string walk has gone once round memory), the step ends with `routine` set and the next step goes on with it (R114,
D18; DESIGN CHOICE, log 6 and log 7). -/

namespace Sys2Proof.Machine

/-- `x[0] <- zext_16(c); SetCC(0)`: GETC from the end of its read on (R156). -/
def getcAfter (r : ReadOutcome) : State :=
  match r with
  | .byte c t => writeResult .r0 (zext16 c) t
  | .hold t => { t with routine := some .getc }
  | .failed t => raise .ioFailure t

/-- `TermWrite(c); x[0] <- zext_16(c); SetCC(0)`: IN from the end of its read on (R159, D19, log 18). -/
def inAfter (r : ReadOutcome) : State :=
  match r with
  | .byte c t => (termWrite c t).andThen fun _ u => writeResult .r0 (zext16 c) u
  | .hold t => { t with routine := some .inn }
  | .failed t => raise .ioFailure t

/-- What PUTS writes for a non-zero word: its low byte, even 0x00 (R158, D28, log 19). -/
def emitLow (w : Word) (s : State) : Result Unit := termWrite (lowByte w) s

/-- What PUTSP writes for a non-zero word: the low byte always, then the high byte if it is not 0 (R160, D28, log 19). -/
def emitPacked (w : Word) (s : State) : Result Unit :=
  match termWrite (lowByte w) s with
  | .done _ t => if highByte w = 0x00#8 then .done () t else termWrite (highByte w) t
  | .stopped t => .stopped t

/-- The string walk of R158 and R160: read a word through `memRead` (D8, log 13), stop at a zero word, else write it
and go on at the next address, which wraps (R67). `n` bounds the words of one step; when it is used up the routine is
held where it stands. -/
def stringWalk (emit : Word → State → Result Unit) (held : Word → Routine) (n : Nat) (a : Word) (s : State) : State :=
  match n with
  | 0 => { s with routine := some (held a) }
  | k + 1 =>
    (memRead a s).andThen fun w t =>
      if w = 0x0000#16 then t
      else (emit w t).andThen fun _ u => stringWalk emit held k (a + 1) u

/-- The loop of PUTS from address `a` (R158), at most one lap of the address ring a step (log 7). -/
def putsBody (a : Word) (s : State) : State := stringWalk emitLow .puts memoryWords a s

/-- The loop of PUTSP from address `a` (R160), at most one lap of the address ring a step (log 7). -/
def putspBody (a : Word) (s : State) : State := stringWalk emitPacked .putsp memoryWords a s

/-- TRAP x20, GETC (R156). -/
def execTrapGetc (s : State) : Host.Outcome State Fault Refusal := .next (getcAfter (termRead (link s)))

/-- TRAP x21, OUT (R157). -/
def execTrapOut (s : State) : Host.Outcome State Fault Refusal :=
  .next ((termWrite (lowByte ((link s).reg .r0)) (link s)).andThen fun _ t => t)

/-- TRAP x22, PUTS (R158). -/
def execTrapPuts (s : State) : Host.Outcome State Fault Refusal :=
  .next (putsBody ((link s).reg .r0) (link s))

/-- TRAP x23, IN (R159). -/
def execTrapIn (s : State) : Host.Outcome State Fault Refusal :=
  .next ((termWriteAll Config.inPrompt (link s)).andThen fun _ t => inAfter (termRead t))

/-- TRAP x24, PUTSP (R160). -/
def execTrapPutsp (s : State) : Host.Outcome State Fault Refusal :=
  .next (putspBody ((link s).reg .r0) (link s))

/-- TRAP x25, HALT: the marker is written before the engine halts (R161). -/
def execTrapHalt (s : State) : Host.Outcome State Fault Refusal :=
  .next ((termWriteAll Config.haltMarker (link s)).andThen fun _ t => halt t)

/-- TRAP with an undefined vector: R7 is written, then MalformedInstruction is raised, whatever the vector (R162). -/
def execTrapUndefined (_trapvect8 : BitVec 8) (s : State) : Host.Outcome State Fault Refusal :=
  .next (raise .malformedInstruction (link s))

/-- RTI: raises UnimplementedOpcode; nothing is popped, restored or returned from (R163, R188). -/
def execRti (s : State) : Host.Outcome State Fault Refusal := .next (raise .unimplementedOpcode s)

/-- RES: raises UnimplementedOpcode (R164). -/
def execRes (s : State) : Host.Outcome State Fault Refusal := .next (raise .unimplementedOpcode s)

/-- The engine goes on inside a routine it was held in: R7 was written and, for IN, the prompt when it began (R114). A
read that waits was drawn when it began and only a byte ends it (R212). -/
def resume (r : Routine) (s : State) : State :=
  match r with
  | .getc => getcAfter (termAwait { s with routine := none })
  | .inn => inAfter (termAwait { s with routine := none })
  | .puts a => putsBody a { s with routine := none }
  | .putsp a => putspBody a { s with routine := none }

end Sys2Proof.Machine
end

