-- ==== Sys2Proof/Machine/Step.lean ====
section
/-! DEFINITION. One step of the engine (R110, R113, R114 of 40_instruction_cycle.md). -/

namespace Sys2Proof.Machine

/-- `Step()` of R110: fetch, increment, decode, execute. Halted and Faulted(c) have no step (R113). A step that begins
inside a held routine goes on with it and fetches nothing (R114; log 6). -/
def step (s : State) : Host.Outcome State Fault Refusal :=
  match s.run with
  | .halted => .fault .halted
  | .faulted c => .fault (.fatal c)
  | .running =>
    match s.routine with
    | some r => .next (resume r s)
    | none =>
      match fetch s with
      | .done w t => exec (decode w) t
      | .stopped t => .next t

/-- The state whose next step fetches and runs the table word `w`: the word is stored at the PC of a running engine
between two instructions. The address 0xFE00 cannot hold an instruction, since a fetch there refreshes it first (R111);
there, and only there, the PC moves to PC_START (log 24). -/
def State.withFetchWord (s : State) (nbits w : Nat) : State :=
  let a := if s.pc = kbsrAddr then pcStart else s.pc
  { s with pc := a, mem := s.mem.write a (tableWord nbits w), run := .running, routine := none }

end Sys2Proof.Machine
end

