-- ==== Sys2Proof/Safety.lean ====
section
/-! DEFINITION. What claims say of runs: the invariant of the machine, the states a run reaches, and the ends of a run
(R27, R31, R113, R213). -/

namespace Sys2Proof.Machine

/-- The invariant every step keeps: the memory list has its canonical form (log 1), COND holds exactly one of the flags
(R27), and a routine is under way only while the engine is Running (R113, R114). -/
structure StateInvariant (s : State) : Prop where
  memWf : s.mem.wf
  condOne : s.cond = flagNeg ∨ s.cond = flagZro ∨ s.cond = flagPos
  routineRunning : s.routine ≠ none → s.run = .running

/-- The states that a machine and its host reach from `s`: by steps of the machine, and by input the host appends
between them (R34, R212). -/
inductive Reaches (s : State) : State → Prop where
  | refl : Reaches s s
  | step {t u : State} : Reaches s t → Machine.step t = .next u → Reaches s u
  | input {t : State} (bs : List Byte) : Reaches s t → Reaches s (t.hostAppend bs)

/-- A run is safe in a state when no fatal condition has ended it (R213: the normal end is Halted alone). -/
def Safe (s : State) : Prop := ∀ c, s.run ≠ .faulted c

/-- The run has ended: Halted, or Faulted(c) (R213). -/
def Ended (s : State) : Prop := s.run ≠ .running

end Sys2Proof.Machine
end

