-- ==== Sys2Proof/Certificates/Slice0/Obligations.lean ====
section
/-! DEFINITION. The statements for the provers. The words of the spec are said here in arithmetic of their own
(`Claims.…`), not through the helpers the meanings call. "log n" is notes/assumptions/n.md. -/

open Sys2Proof Sys2Proof.Machine

namespace Sys2Proof.Claims

/-! ### The vocabulary of the statements -/

/-- COND for a register value: NEG = 4 if bit 15 is set, ZRO = 2 if the value is 0, else POS = 1 (R24, R25). -/
def signOf (v : Word) : Word :=
  if 0x8000 ≤ v.toNat then 4#16 else if v.toNat = 0 then 2#16 else 1#16

/-- `sext_N` by the arithmetic of R9: add 65536 - 2^N when bit N-1 is set. -/
def signExtend {n : Nat} (v : BitVec n) : Word :=
  BitVec.ofNat 16 (if 2 ^ (n - 1) ≤ v.toNat then v.toNat + (65536 - 2 ^ n) else v.toNat)

/-- The number of a register (R20). -/
def regNumber (r : Reg) : Nat :=
  match r with
  | .r0 => 0
  | .r1 => 1
  | .r2 => 2
  | .r3 => 3
  | .r4 => 4
  | .r5 => 5
  | .r6 => 6
  | .r7 => 7

/-- The 3-bit field of `w` whose lowest bit is `lo` names the register `r` (R82). -/
def Names (w : Word) (lo : Nat) (r : Reg) : Prop := (w.extractLsb' lo 3).toNat = regNumber r

/-- The low byte of a word (R57). -/
def low (w : Word) : Byte := BitVec.ofNat 8 w.toNat

/-- The high byte of a word (R57). -/
def high (w : Word) : Byte := BitVec.ofNat 8 (w.toNat / 256)

/-- The word with a byte's value (R9). -/
def wordOf (b : Byte) : Word := BitVec.ofNat 16 b.toNat

/-- `x[DR] <- v; SetCC(DR)`, and nothing else. -/
def withResult (s : State) (dr : Reg) (v : Word) : State := { s with regs := s.regs.set dr v, cond := signOf v }

/-- `x[7] <- pc`, and nothing else. -/
def linked (s : State) : State := { s with regs := s.regs.set .r7 s.pc }

/-- The host's move at the Terminal operation after the next `n` ones; quiet where its script has ended (log 4). -/
def moveAt (s : State) (n : Nat) : HostMove := (s.host[n]?).getD ⟨[], false⟩

/-- The state after the host has made its next `n` moves: their bytes have arrived (R34; log 4). -/
def afterMoves (n : Nat) (s : State) : State :=
  { s with inQ := s.inQ ++ (s.host.take n).flatMap HostMove.arrive, host := s.host.drop n }

/-- No Terminal operation among the next `n` is made to fail. -/
def NoFailure (n : Nat) (s : State) : Prop := ∀ k, k < n → (moveAt s k).fails = false

/-- The run ends on a fatal condition and nothing else changes (R184). -/
def faultedWith (c : FatalCondition) (s : State) : State := { s with run := .faulted c }

/-- Outcome `o` of writing the bytes `bs` from `s`, one Terminal operation a byte, and then `k`: all of them written
and `k` run, or the first failing write ends the run with the bytes before it written (R15, R184). -/
def WritesThen (bs : List Byte) (s : State) (k : State → State) (o : Host.Outcome State Fault Refusal) : Prop :=
  (NoFailure bs.length s → o = .next (k { afterMoves bs.length s with out := s.out ++ bs })) ∧
  (∀ n, n < bs.length → NoFailure n s → (moveAt s n).fails = true →
    o = .next (faultedWith .ioFailure { afterMoves (n + 1) s with out := s.out ++ bs.take n }))

/-- A read of 0xFE00 in `s` meets a failing Terminal: a key is pending at the poll and the read of it fails (R52). -/
def KbsrReadFails (s : State) : Prop :=
  s.inQ ++ (moveAt s 0).arrive ≠ [] ∧ (moveAt s 1).fails = true

/-- Outcome `o` of a load of DR from `ea` in `s` (R131, R133): at an address that is not KBSR the stored word and its
flags, and nothing else; in general whatever `MemRead` answers; IoFailure only at KBSR with a failing Terminal. -/
def Loads (o : Host.Outcome State Fault Refusal) (s : State) (ea : Word) (dr : Reg) : Prop :=
  (ea ≠ 0xFE00#16 → o = .next (withResult s dr (s.mem.read ea))) ∧
  (∀ w t, memRead ea s = .done w t → o = .next (withResult t dr w)) ∧
  (∀ t, memRead ea s = .stopped t →
    o = .next t ∧ ea = 0xFE00#16 ∧ KbsrReadFails s ∧ t = faultedWith .ioFailure (afterMoves 2 s))

/-- Outcome `o` of a store of `v` at `ea` in `s` (R54): that word is `v`, every other word and everything else is as
before. -/
def Stores (o : Host.Outcome State Fault Refusal) (s : State) (ea v : Word) : Prop :=
  ∃ t, o = .next t ∧ t.mem.read ea = v ∧ (∀ a, a ≠ ea → t.mem.read a = s.mem.read a) ∧ t = { s with mem := t.mem }

/-- IMAGE(a): the last word the loader wrote at `a`, 0x0000 where it wrote nothing (R36). -/
def imageAt (image : List (Word × Word)) (a : Word) : Word := (image.reverse.lookup a).getD 0x0000#16

/-- The bytes PUTS writes for a word (R158). -/
def putsBytes (w : Word) : List Byte := [low w]

/-- The bytes PUTSP writes for a word: low byte first, then the high byte if non-zero (R160). -/
def putspBytes (w : Word) : List Byte := if high w = 0x00#8 then [low w] else [low w, high w]

/-- The words `ws`, all non-zero and none at KBSR, stand in memory from `a`, and a zero word after them (R158). -/
def StringAt (s : State) (a : Word) (ws : List Word) : Prop :=
  ws.length < 65536 ∧
  (∀ i w, ws[i]? = some w → w ≠ 0x0000#16 ∧ a + BitVec.ofNat 16 i ≠ 0xFE00#16 ∧
    s.mem.read (a + BitVec.ofNat 16 i) = w) ∧
  a + BitVec.ofNat 16 ws.length ≠ 0xFE00#16 ∧ s.mem.read (a + BitVec.ofNat 16 ws.length) = 0x0000#16

/-- The loop of R158 and R160 as a relation, for any bytes a word: from address `a` in `s` the loop passes `n` non-zero
words, writes their bytes and stands at the head of the loop, at the next address, in `t`. -/
inductive Passes (bytes : Word → List Byte) : Nat → Word → State → Word → State → Prop where
  | here (a : Word) (s : State) : Passes bytes 0 a s a s
  | word {n : Nat} {a b w : Word} {s t u v : State} :
      memRead a s = .done w t → w ≠ 0x0000#16 → termWriteEach (bytes w) t = .done () u →
      Passes bytes n (a + 1#16) u b v → Passes bytes (n + 1) a s b v

/-- The loop of R158 and R160 ends in `t` from its head at `a` in `s` without going on: a zero word, a read that raises,
or a write that raises. -/
inductive EndsAt (bytes : Word → List Byte) (a : Word) (s t : State) : Prop where
  | zeroWord : memRead a s = .done 0x0000#16 t → EndsAt bytes a s t
  | readRaises : memRead a s = .stopped t → EndsAt bytes a s t
  | writeRaises {w : Word} {u : State} :
      memRead a s = .done w u → w ≠ 0x0000#16 → termWriteEach (bytes w) u = .stopped t → EndsAt bytes a s t

/-- Outcome `o` of the loop from `a` in `s`: it ends in this step if it passes fewer than 65,536 words, and is held at
the head of the loop after a whole lap (the lap is the model's choice, log 7). -/
def LoopsAs (bytes : Word → List Byte) (held : Word → Routine) (a : Word) (s : State)
    (o : Host.Outcome State Fault Refusal) : Prop :=
  (∀ n b u t, n < 65536 → Passes bytes n a s b u → EndsAt bytes b u t → o = .next t) ∧
  (∀ b u, Passes bytes 65536 a s b u → o = .next { u with routine := some (held b) })

/-- GETC from its blocking read on, in `s` (R156): the read fails, or takes the oldest pending byte into R0 with its
flags, or holds because nothing is pending. -/
def GetcReads (s : State) (o : Host.Outcome State Fault Refusal) : Prop :=
  ((moveAt s 0).fails = true → o = .next (faultedWith .ioFailure (afterMoves 1 s))) ∧
  (∀ b q, (moveAt s 0).fails = false → (afterMoves 1 s).inQ = b :: q →
    o = .next (withResult { afterMoves 1 s with inQ := q } .r0 (wordOf b))) ∧
  ((moveAt s 0).fails = false → (afterMoves 1 s).inQ = [] →
    o = .next { afterMoves 1 s with routine := some .getc })

/-- IN from its blocking read on, in `s` (R159): as GETC, with the byte echoed before it is stored. -/
def InReads (s : State) (o : Host.Outcome State Fault Refusal) : Prop :=
  ((moveAt s 0).fails = true → o = .next (faultedWith .ioFailure (afterMoves 1 s))) ∧
  (∀ b q, (moveAt s 0).fails = false → (afterMoves 1 s).inQ = b :: q →
    WritesThen [b] { afterMoves 1 s with inQ := q } (fun t => withResult t .r0 (wordOf b)) o) ∧
  ((moveAt s 0).fails = false → (afterMoves 1 s).inQ = [] →
    o = .next { afterMoves 1 s with routine := some .inn })

/-- GETC held in `s` (R114): only a byte ends the wait, and no failure is drawn again (R212, "only this duty does"). -/
def GetcWaits (s : State) (o : Host.Outcome State Fault Refusal) : Prop :=
  (∀ b q, (afterMoves 1 s).inQ = b :: q →
    o = .next (withResult { afterMoves 1 s with inQ := q, routine := none } .r0 (wordOf b))) ∧
  ((afterMoves 1 s).inQ = [] → o = .next (afterMoves 1 s))

/-- IN held in `s`: as GETC, with the byte echoed before it is stored. -/
def InWaits (s : State) (o : Host.Outcome State Fault Refusal) : Prop :=
  (∀ b q, (afterMoves 1 s).inQ = b :: q →
    WritesThen [b] { afterMoves 1 s with inQ := q, routine := none } (fun t => withResult t .r0 (wordOf b)) o) ∧
  ((afterMoves 1 s).inQ = [] → o = .next (afterMoves 1 s))

/-- The register whose value a flag-setting form's SetCC reads; none for the forms that set no flags (R26). -/
def flagSource (i : Instr) : Option Reg :=
  match i with
  | .addReg d _ _ | .addImm d _ _ | .andReg d _ _ | .andImm d _ _ | .notReg d _ => some d
  | .ld d _ | .ldi d _ | .ldr d _ _ | .lea d _ => some d
  | .trapGetc | .trapIn => some .r0
  | _ => none

/-- The registers a form may write: its DR, R7 for the calls and every TRAP, R0 for GETC and IN (R22). -/
def mayWrite (i : Instr) (r : Reg) : Bool :=
  match i with
  | .addReg d _ _ | .addImm d _ _ | .andReg d _ _ | .andImm d _ _ | .notReg d _ => r == d
  | .ld d _ | .ldi d _ | .ldr d _ _ | .lea d _ => r == d
  | .jsr _ | .jsrr _ | .trapOut | .trapPuts | .trapPutsp | .trapHalt | .trapUndefined _ => r == .r7
  | .trapGetc | .trapIn => r == .r7 || r == .r0
  | _ => false

/-- The control transfers, the only forms that change the PC beyond the fetch (R23). -/
def changesPc (i : Instr) : Bool :=
  match i with
  | .br _ _ | .jmp _ | .jsr _ | .jsrr _ => true
  | _ => false

/-- The stores (R28). -/
def isStore (i : Instr) : Bool :=
  match i with
  | .st _ _ | .sti _ _ | .str _ _ _ => true
  | _ => false

/-- In `s` the instruction `i` is a store of `sr` at the address `ea` (R135, R136, R137). -/
def StoresAt (i : Instr) (sr : Reg) (s : State) (ea : Word) : Prop :=
  (∃ off, i = .st sr off ∧ ea = s.pc + signExtend off) ∨
  (∃ base off, i = .str sr base off ∧ ea = s.reg base + signExtend off) ∨
  (∃ off t, i = .sti sr off ∧ memRead (s.pc + signExtend off) s = .done ea t)

/-- The forms that may perform a Terminal operation that can fail (R183), the fetch apart. -/
def mayFail (i : Instr) : Bool :=
  match i with
  | .ld _ _ | .ldi _ _ | .ldr _ _ _ | .sti _ _ => true
  | .trapGetc | .trapOut | .trapPuts | .trapIn | .trapPutsp | .trapHalt => true
  | _ => false

/-- The bits of a word that its form uses; the others are ignored (R85). -/
def usedBits (w : Word) : Word :=
  match (w.extractLsb' 12 4).toNat with
  | 1 => if w.getLsbD 5 then 0xFFFF#16 else 0xFFE7#16
  | 4 => if w.getLsbD 11 then 0xFFFF#16 else 0xF9C0#16
  | 5 => if w.getLsbD 5 then 0xFFFF#16 else 0xFFE7#16
  | 8 => 0xF000#16
  | 9 => 0xFFC0#16
  | 12 => 0xF1C0#16
  | 13 => 0xF000#16
  | 15 => 0xF0FF#16
  | _ => 0xFFFF#16

end Sys2Proof.Claims

open Sys2Proof.Claims

/-! ### Reset and the host -/

/-- R36: the reset state, for any image, input and host script: R0 to R7 zero, PC 0x3000, COND ZRO, every memory word
the loader's, Running, the input as the host supplied it, no output. The last two are the spec's own model of the
Terminal (D10; log 3). -/
def Obligations.BootStateHasTheResetValues : Prop :=
  ∀ (image : List (Word × Word)) (input : List Byte) (script : List HostMove),
    let s := State.boot image input script
    (∀ r, s.reg r = 0x0000#16) ∧ s.pc = 0x3000#16 ∧ s.cond = 0x0002#16 ∧
    (∀ a, s.mem.read a = imageAt image a) ∧ s.run = .running ∧ s.inQ = input ∧ s.out = []

/-- The model's choice (log 2, log 3): `State.reset` is that state with nothing loaded, nothing pending and an empty
script; it meets the invariant, as every boot state does (canonical memory is log 1); and no routine is under way in
either (log 6). -/
def Obligations.ResetAndBootMeetTheInvariant : Prop :=
  State.boot [] [] [] = State.reset ∧ StateInvariant State.reset ∧ State.reset.routine = none ∧
  ∀ (image : List (Word × Word)) (input : List Byte) (script : List HostMove),
    StateInvariant (State.boot image input script) ∧ (State.boot image input script).routine = none

/-! ### Registers, flags, sign extension -/

/-- R21: register access is total, a read returns the last word written, a write changes no other register and not PC or
COND nor anything else, and after reset an unwritten register reads 0x0000. -/
def Obligations.RegisterReadReturnsTheLastWrite : Prop :=
  (∀ (s : State) (r : Reg) (v : Word),
    (s.setReg r v).reg r = v ∧ (∀ q, q ≠ r → (s.setReg r v).reg q = s.reg q) ∧
    s.setReg r v = { s with regs := (s.setReg r v).regs }) ∧
  (∀ r, State.reset.reg r = 0x0000#16)

/-- R25: SetCC reads the named register's current value and writes COND, and nothing else. -/
def Obligations.SetCCFollowsTheRegisterValue : Prop :=
  ∀ (r : Reg) (s : State), setCC r s = { s with cond := signOf (s.reg r) }

/-- R9: sign extension from 5, 6, 9 and 11 bits is the stated sum and keeps the signed value; zero extension of a byte
keeps its numeric value. -/
def Obligations.SignExtensionKeepsTheSignedValue : Prop :=
  (∀ v : BitVec 5, sext v = signExtend v ∧ (sext v).toInt = v.toInt) ∧
  (∀ v : BitVec 6, sext v = signExtend v ∧ (sext v).toInt = v.toInt) ∧
  (∀ v : BitVec 9, sext v = signExtend v ∧ (sext v).toInt = v.toInt) ∧
  (∀ v : BitVec 11, sext v = signExtend v ∧ (sext v).toInt = v.toInt) ∧
  (∀ b : Byte, (zext16 b).toNat = b.toNat)

/-! ### Memory and the keyboard registers -/

/-- R54: `MemWrite` stores at every address, the device words included, with no side effect. -/
def Obligations.WriteStoresOneWordAndNothingElse : Prop :=
  ∀ (s : State) (a v : Word),
    (memWrite a v s).mem.read a = v ∧ (∀ b, b ≠ a → (memWrite a v s).mem.read b = s.mem.read b) ∧
    memWrite a v s = { s with mem := (memWrite a v s).mem }

/-- R53: a read of any address but 0xFE00, 0xFE02 among them, returns the stored word and changes nothing. -/
def Obligations.OnlyKbsrReadsHaveASideEffect : Prop :=
  ∀ (s : State) (a : Word), a ≠ 0xFE00#16 → memRead a s = .done (s.mem.read a) s

/-- The refresh of R51 and R52 at 0xFE00. It rests on the spec's decision that the key is consumed (D7, log 12), on its
state after a failing read (D9, log 5) and on the host script (log 4). -/
def Obligations.KbsrReadPollsTheTerminal : Prop :=
  ∀ s : State,
    ((afterMoves 1 s).inQ = [] → ∃ t, memRead 0xFE00#16 s = .done 0x0000#16 t ∧
      t.mem.read 0xFE00#16 = 0x0000#16 ∧ (∀ a, a ≠ 0xFE00#16 → t.mem.read a = s.mem.read a) ∧
      t = { afterMoves 1 s with mem := t.mem }) ∧
    (∀ b q, (afterMoves 1 s).inQ = b :: q → (moveAt s 1).fails = false →
      ∃ t, memRead 0xFE00#16 s = .done 0x8000#16 t ∧
        t.mem.read 0xFE00#16 = 0x8000#16 ∧ t.mem.read 0xFE02#16 = wordOf b ∧
        (∀ a, a ≠ 0xFE00#16 → a ≠ 0xFE02#16 → t.mem.read a = s.mem.read a) ∧
        t = { afterMoves 2 s with mem := t.mem, inQ := q ++ (moveAt s 1).arrive }) ∧
    ((afterMoves 1 s).inQ ≠ [] → (moveAt s 1).fails = true →
      memRead 0xFE00#16 s = .stopped (faultedWith .ioFailure (afterMoves 2 s)))

/-- R55: a value stored to 0xFE00 is never read back; a value stored to 0xFE02 is, and stays through a read of 0xFE00
that finds no key. An inference the spec marks as its own. -/
def Obligations.StoredKbsrValueIsNeverReadBack : Prop :=
  ∀ (s : State) (v : Word),
    (∀ w t, memRead 0xFE00#16 (memWrite 0xFE00#16 v s) = .done w t →
      (w = 0x0000#16 ∨ w = 0x8000#16) ∧ t.mem.read 0xFE00#16 = w) ∧
    memRead 0xFE02#16 (memWrite 0xFE02#16 v s) = .done v (memWrite 0xFE02#16 v s) ∧
    (∀ w t, (afterMoves 1 s).inQ = [] → memRead 0xFE00#16 (memWrite 0xFE02#16 v s) = .done w t →
      memRead 0xFE02#16 t = .done v t)

/-- R216, an inference the spec marks as its own (D7, log 12): with two keys pending, the second read of KBSR overwrites
the first key in KBDR, and a GETC after one read of KBSR gets the second key. -/
def Obligations.KbsrReadConsumesTheKey : Prop :=
  ∀ (s : State) (b c : Byte) (q : List Byte), s.host = [] → s.inQ = b :: c :: q →
    ∃ t u, memRead 0xFE00#16 s = .done 0x8000#16 t ∧ t.inQ = c :: q ∧ t.mem.read 0xFE02#16 = wordOf b ∧
      memRead 0xFE00#16 t = .done 0x8000#16 u ∧ u.inQ = q ∧ u.mem.read 0xFE02#16 = wordOf c ∧
      exec .trapGetc t = .next (withResult { linked t with inQ := q } .r0 (wordOf c))

/-- The model's form of memory (log 1): two memories in canonical form that read alike at every address are one list. -/
def Obligations.CanonicalMemoriesThatReadAlikeAreEqual : Prop :=
  ∀ m n : Memory, m.wf → n.wf → (∀ a, m.read a = n.read a) → m = n

/-! ### Encoding -/

/-- Decoding the word of any well-formed instruction gives it back, whatever its operands (R84, R86; field positions
log 9, ignored bits log 10). -/
def Obligations.DecodingAnEncodedInstructionGivesItBack : Prop :=
  ∀ i : Instr, WellFormed i = true → decode (encode i) = i

/-- R86: every word decodes to a well-formed instruction; no word of a table row is refused (log 23). -/
def Obligations.EveryWordDecodesToAWellFormedInstruction : Prop :=
  (∀ w : Word, WellFormed (decode w) = true) ∧ (∀ n : Nat, decodeTableWord 16 n = some (decode (BitVec.ofNat 16 n)))

/-- R85, the spec's decision D4 (log 11): two words that agree on the bits their form uses are the same instruction. -/
def Obligations.IgnoredBitsDoNotChangeTheInstruction : Prop :=
  ∀ w v : Word, (∀ i, (usedBits w).getLsbD i = true → v.getLsbD i = w.getLsbD i) → decode v = decode w

/-- Words written out from the formats of R84 decode to what they stand for, one or more of every family. The opcode
numbers are the spec's reading D1 (log 22), the positions in BR, NOT, LDR, STR and JSRR its general knowledge or derivation
(log 9). -/
def Obligations.WordsWrittenFromTheFormatsDecodeRight : Prop :=
  decode 0b0000001111111101#16 = .br 0b001#3 0x1FD#9 ∧
  decode 0b0001010000000001#16 = .addReg .r2 .r0 .r1 ∧
  decode 0b0001000000100001#16 = .addImm .r0 .r0 1#5 ∧
  decode 0b0101011001000010#16 = .andReg .r3 .r1 .r2 ∧
  decode 0b1001011011111111#16 = .notReg .r3 .r3 ∧
  decode 0b0110011010000000#16 = .ldr .r3 .r2 0#6 ∧
  decode 0b0111001110111111#16 = .str .r1 .r6 0x3F#6 ∧
  decode 0b0100100000000001#16 = .jsr 1#11 ∧
  decode 0b0100000010000000#16 = .jsrr .r2 ∧
  decode 0b1111000000100101#16 = .trapHalt ∧
  decode 0b1000000000000000#16 = .rti

/-! ### The step -/

/-- R110: a step of a running engine between two instructions fetches by `MemRead` at the PC, increments the PC modulo
2^16, and is `exec` of the decoded instruction in the state so reached. At every PC but 0xFE00 the fetch has no side
effect. (A fetch that raises: `FetchAtKbsrPollsTheKeyboard`.) -/
def Obligations.StepRunsTheDecodedInstruction : Prop :=
  ∀ s : State, s.run = .running → s.routine = none →
    (s.pc ≠ 0xFE00#16 →
      step s = exec (decode (s.mem.read s.pc)) { s with pc := BitVec.ofNat 16 (s.pc.toNat + 1) }) ∧
    (∀ w t, memRead s.pc s = .done w t →
      step s = exec (decode w) { t with pc := BitVec.ofNat 16 (s.pc.toNat + 1) })

/-- R111, an inference the spec marks as its own: a fetch at 0xFE00 with no key pending executes the word 0x0000, which
only advances the PC; with a key it executes 0x8000, an RTI; with a failing Terminal the PC is not incremented (D9, log 5;
the host script, log 4). -/
def Obligations.FetchAtKbsrPollsTheKeyboard : Prop :=
  ∀ s : State, s.run = .running → s.routine = none → s.pc = 0xFE00#16 →
    ((afterMoves 1 s).inQ = [] → ∃ t, step s = .next t ∧ t.mem.read 0xFE00#16 = 0x0000#16 ∧
      (∀ a, a ≠ 0xFE00#16 → t.mem.read a = s.mem.read a) ∧
      t = { afterMoves 1 s with pc := 0xFE01#16, mem := t.mem }) ∧
    (∀ b q, (afterMoves 1 s).inQ = b :: q → (moveAt s 1).fails = false → ∃ t, step s = .next t ∧
      t.mem.read 0xFE00#16 = 0x8000#16 ∧ t.mem.read 0xFE02#16 = wordOf b ∧
      (∀ a, a ≠ 0xFE00#16 → a ≠ 0xFE02#16 → t.mem.read a = s.mem.read a) ∧
      t = { afterMoves 2 s with pc := 0xFE01#16, mem := t.mem, inQ := q ++ (moveAt s 1).arrive,
                                run := .faulted .unimplementedOpcode }) ∧
    ((afterMoves 1 s).inQ ≠ [] → (moveAt s 1).fails = true →
      step s = .next (faultedWith .ioFailure (afterMoves 2 s)))

/-- The model's placing of a word for the next step (log 24): the very next step runs exactly the placed word. -/
def Obligations.PlacedWordRunsNext : Prop :=
  ∀ (s : State) (n : Nat),
    step (s.withFetchWord 16 n) =
      exec (decode (BitVec.ofNat 16 n)) { s.withFetchWord 16 n with pc := (s.withFetchWord 16 n).pc + 1#16 }

/-- R113: Halted and Faulted(c) have no step. That `step` answers a fault there is the model's form of it (log 5). -/
def Obligations.StoppedEngineHasNoStep : Prop :=
  ∀ s : State, (s.run = .halted → step s = .fault .halted) ∧ (∀ c, s.run = .faulted c → step s = .fault (.fatal c))

/-- R114, R212: a held GETC or IN fetches nothing and waits for a byte, whatever failures the host has in its script;
the byte ends the wait and the rest of the routine runs (R156, R159): the byte zero-extended (D20, log 17), IN's echo before
the store and a failing echo as any write (D19, log 18; D9, log 5). With nothing pending and a quiet host the state stays
what it is. The host script (log 4) and the micro-steps (D18, log 6) are the model's. -/
def Obligations.HeldReadGoesOnWhenAByteIsThere : Prop :=
  ∀ s : State, s.run = .running →
    (s.routine = some .getc → GetcWaits s (step s)) ∧
    (s.routine = some .inn → InWaits s (step s)) ∧
    ((s.routine = some .getc ∨ s.routine = some .inn) → s.inQ = [] → s.host = [] → step s = .next s)

/-- A held PUTS or PUTSP goes on with its loop in the next step (the model's laps, log 7). -/
def Obligations.HeldWalkGoesOnWithItsLoop : Prop :=
  ∀ (s : State) (a : Word), s.run = .running →
    (s.routine = some (.puts a) → LoopsAs putsBytes .puts a { s with routine := none } (step s)) ∧
    (s.routine = some (.putsp a) → LoopsAs putspBytes .putsp a { s with routine := none } (step s))

/-- R89, an inference the spec marks as its own: a word 0x0000 to 0x01FF only advances the PC, and a BR with all three
condition bits always branches where COND holds one of its flags. -/
def Obligations.ZeroWordOnlyAdvancesThePc : Prop :=
  (∀ (s : State), s.run = .running → s.routine = none → s.pc ≠ 0xFE00#16 → (s.mem.read s.pc).toNat < 0x200 →
    step s = .next { s with pc := BitVec.ofNat 16 (s.pc.toNat + 1) }) ∧
  (∀ (s : State) (off : BitVec 9), (s.cond = 1#16 ∨ s.cond = 2#16 ∨ s.cond = 4#16) →
    exec (.br 0b111#3 off) s = .next { s with pc := s.pc + signExtend off })

/-- R65, an inference the spec marks as its own: a store to the address the next fetch reads is what that fetch reads, be
it the store operation itself, or an ST, STR or STI whose address is the PC. -/
def Obligations.StoreIsSeenByTheVeryNextFetch : Prop :=
  ∀ s : State, s.run = .running → s.routine = none → s.pc ≠ 0xFE00#16 →
    (∀ v : Word, step (memWrite s.pc v s) =
      exec (decode v) { memWrite s.pc v s with pc := BitVec.ofNat 16 (s.pc.toNat + 1) }) ∧
    (∀ (i : Instr) (sr : Reg), StoresAt i sr s s.pc →
      ∃ t, exec i s = .next t ∧ t.pc = s.pc ∧
        step t = exec (decode (s.reg sr)) { t with pc := BitVec.ofNat 16 (s.pc.toNat + 1) })

/-! ### Operate instructions -/

/-- R121, whole: the words that are the form, the sum modulo 2^16 into DR with its flags, nothing else, no fault. -/
def Obligations.AddRegisterForm : Prop :=
  ∀ (dr sr1 sr2 : Reg),
    (∀ w : Word, w.extractLsb' 12 4 = 1#4 → w.getLsbD 5 = false → Names w 9 dr → Names w 6 sr1 → Names w 0 sr2 →
      decode w = .addReg dr sr1 sr2) ∧
    (∀ s : State, exec (.addReg dr sr1 sr2) s =
      .next (withResult s dr (BitVec.ofNat 16 ((s.reg sr1).toNat + (s.reg sr2).toNat))))

/-- R122, whole. -/
def Obligations.AddImmediateForm : Prop :=
  ∀ (dr sr1 : Reg) (imm5 : BitVec 5),
    (∀ w : Word, w.extractLsb' 12 4 = 1#4 → w.getLsbD 5 = true → Names w 9 dr → Names w 6 sr1 →
      w.extractLsb' 0 5 = imm5 → decode w = .addImm dr sr1 imm5) ∧
    (∀ s : State, exec (.addImm dr sr1 imm5) s =
      .next (withResult s dr (BitVec.ofNat 16 ((s.reg sr1).toNat + (signExtend imm5).toNat))))

/-- R123, whole. -/
def Obligations.AndRegisterForm : Prop :=
  ∀ (dr sr1 sr2 : Reg),
    (∀ w : Word, w.extractLsb' 12 4 = 5#4 → w.getLsbD 5 = false → Names w 9 dr → Names w 6 sr1 → Names w 0 sr2 →
      decode w = .andReg dr sr1 sr2) ∧
    (∀ s : State, ∃ v : Word, (∀ i, i < 16 → v.getLsbD i = ((s.reg sr1).getLsbD i && (s.reg sr2).getLsbD i)) ∧
      exec (.andReg dr sr1 sr2) s = .next (withResult s dr v))

/-- R124, whole. -/
def Obligations.AndImmediateForm : Prop :=
  ∀ (dr sr1 : Reg) (imm5 : BitVec 5),
    (∀ w : Word, w.extractLsb' 12 4 = 5#4 → w.getLsbD 5 = true → Names w 9 dr → Names w 6 sr1 →
      w.extractLsb' 0 5 = imm5 → decode w = .andImm dr sr1 imm5) ∧
    (∀ s : State, ∃ v : Word, (∀ i, i < 16 → v.getLsbD i = ((s.reg sr1).getLsbD i && (signExtend imm5).getLsbD i)) ∧
      exec (.andImm dr sr1 imm5) s = .next (withResult s dr v))

/-- R125; the position of SR is the spec's general knowledge (log 9). -/
def Obligations.NotForm : Prop :=
  ∀ (dr sr : Reg),
    (∀ w : Word, w.extractLsb' 12 4 = 9#4 → Names w 9 dr → Names w 6 sr → decode w = .notReg dr sr) ∧
    (∀ s : State, exec (.notReg dr sr) s = .next (withResult s dr (BitVec.ofNat 16 (65535 - (s.reg sr).toNat))))

/-! ### Data movement -/

/-- R131; what a failing Terminal leaves is the spec's decision D9 (log 5), the host script the model's (log 4). -/
def Obligations.LdForm : Prop :=
  ∀ (dr : Reg) (off : BitVec 9),
    (∀ w : Word, w.extractLsb' 12 4 = 2#4 → Names w 9 dr → w.extractLsb' 0 9 = off → decode w = .ld dr off) ∧
    (∀ s : State, Loads (exec (.ld dr off) s) s (s.pc + signExtend off) dr)

/-- R132: the pointer read, then the data read, each a `MemRead`; a raising pointer read ends the instruction (D9, log 5;
the host script, log 4). -/
def Obligations.LdiForm : Prop :=
  ∀ (dr : Reg) (off : BitVec 9),
    (∀ w : Word, w.extractLsb' 12 4 = 10#4 → Names w 9 dr → w.extractLsb' 0 9 = off → decode w = .ldi dr off) ∧
    (∀ s : State,
      (s.pc + signExtend off ≠ 0xFE00#16 → Loads (exec (.ldi dr off) s) s (s.mem.read (s.pc + signExtend off)) dr) ∧
      (∀ ea t, memRead (s.pc + signExtend off) s = .done ea t → Loads (exec (.ldi dr off) s) t ea dr) ∧
      (∀ t, memRead (s.pc + signExtend off) s = .stopped t →
        exec (.ldi dr off) s = .next t ∧ s.pc + signExtend off = 0xFE00#16 ∧ KbsrReadFails s ∧
        t = faultedWith .ioFailure (afterMoves 2 s)))

/-- R133; the positions of BaseR and offset6 are the spec's general knowledge (log 9); failures as for LD (log 4, log 5). -/
def Obligations.LdrForm : Prop :=
  ∀ (dr base : Reg) (off : BitVec 6),
    (∀ w : Word, w.extractLsb' 12 4 = 6#4 → Names w 9 dr → Names w 6 base → w.extractLsb' 0 6 = off →
      decode w = .ldr dr base off) ∧
    (∀ s : State, Loads (exec (.ldr dr base off) s) s (s.reg base + signExtend off) dr)

/-- R134, whole: the address into DR with its flags, no memory access, no fault. -/
def Obligations.LeaForm : Prop :=
  ∀ (dr : Reg) (off : BitVec 9),
    (∀ w : Word, w.extractLsb' 12 4 = 14#4 → Names w 9 dr → w.extractLsb' 0 9 = off → decode w = .lea dr off) ∧
    (∀ s : State, exec (.lea dr off) s =
      .next (withResult s dr (BitVec.ofNat 16 (s.pc.toNat + (signExtend off).toNat))))

/-- R135; the position of SR is the spec's derivation (log 9). -/
def Obligations.StForm : Prop :=
  ∀ (sr : Reg) (off : BitVec 9),
    (∀ w : Word, w.extractLsb' 12 4 = 3#4 → Names w 9 sr → w.extractLsb' 0 9 = off → decode w = .st sr off) ∧
    (∀ s : State, Stores (exec (.st sr off) s) s (s.pc + signExtend off) (s.reg sr))

/-- R136: the pointer is read by `MemRead`, then SR is stored at it; a raising pointer read ends the instruction (D9,
log 5; the host script, log 4); the position of SR is the spec's derivation (log 9). -/
def Obligations.StiForm : Prop :=
  ∀ (sr : Reg) (off : BitVec 9),
    (∀ w : Word, w.extractLsb' 12 4 = 11#4 → Names w 9 sr → w.extractLsb' 0 9 = off → decode w = .sti sr off) ∧
    (∀ s : State,
      (s.pc + signExtend off ≠ 0xFE00#16 →
        Stores (exec (.sti sr off) s) s (s.mem.read (s.pc + signExtend off)) (s.reg sr)) ∧
      (∀ ea t, memRead (s.pc + signExtend off) s = .done ea t → Stores (exec (.sti sr off) s) t ea (s.reg sr)) ∧
      (∀ t, memRead (s.pc + signExtend off) s = .stopped t →
        exec (.sti sr off) s = .next t ∧ s.pc + signExtend off = 0xFE00#16 ∧ KbsrReadFails s ∧
        t = faultedWith .ioFailure (afterMoves 2 s)))

/-- R137; the positions of SR, BaseR and offset6 are the spec's general knowledge (log 9). -/
def Obligations.StrForm : Prop :=
  ∀ (sr base : Reg) (off : BitVec 6),
    (∀ w : Word, w.extractLsb' 12 4 = 7#4 → Names w 9 sr → Names w 6 base → w.extractLsb' 0 6 = off →
      decode w = .str sr base off) ∧
    (∀ s : State, Stores (exec (.str sr base off) s) s (s.reg base + signExtend off) (s.reg sr))

/-! ### Control transfer -/

/-- R146; the positions are the spec's derivation (log 9), the test is non-zero by C5 (log 15). -/
def Obligations.BrForm : Prop :=
  ∀ (nzp : BitVec 3) (off : BitVec 9),
    (∀ w : Word, w.extractLsb' 12 4 = 0#4 → w.extractLsb' 9 3 = nzp → w.extractLsb' 0 9 = off → decode w = .br nzp off) ∧
    (∀ s : State, exec (.br nzp off) s = .next
      (if (nzp.getLsbD 2 && s.cond.getLsbD 2) || (nzp.getLsbD 1 && s.cond.getLsbD 1) || (nzp.getLsbD 0 && s.cond.getLsbD 0)
       then { s with pc := s.pc + signExtend off } else s))

/-- R147; the position of BaseR is the spec's general knowledge (log 9). -/
def Obligations.JmpForm : Prop :=
  ∀ (base : Reg),
    (∀ w : Word, w.extractLsb' 12 4 = 12#4 → Names w 6 base → decode w = .jmp base) ∧
    (∀ s : State, exec (.jmp base) s = .next { s with pc := s.reg base })

/-- R148, whole: R7 gets the incremented PC, the PC its sum with the offset, nothing else changes. -/
def Obligations.JsrForm : Prop :=
  ∀ (off : BitVec 11),
    (∀ w : Word, w.extractLsb' 12 4 = 4#4 → w.getLsbD 11 = true → w.extractLsb' 0 11 = off → decode w = .jsr off) ∧
    (∀ s : State, exec (.jsr off) s =
      .next { s with regs := s.regs.set .r7 s.pc, pc := BitVec.ofNat 16 (s.pc.toNat + (signExtend off).toNat) })

/-- R149: R7 is written first, so BaseR = R7 reads the new R7 (the spec's decision D6, log 14); the position of BaseR is
the spec's general knowledge (log 9). -/
def Obligations.JsrrForm : Prop :=
  ∀ (base : Reg),
    (∀ w : Word, w.extractLsb' 12 4 = 4#4 → w.getLsbD 11 = false → Names w 6 base → decode w = .jsrr base) ∧
    (∀ s : State, exec (.jsrr base) s =
      .next { s with regs := s.regs.set .r7 s.pc, pc := if base = .r7 then s.pc else s.reg base })

/-! ### TRAP and its routines, RTI, RES -/

/-- R156: GETC links and then reads; the byte is zero-extended (D20, log 17), a failing read leaves R0 and COND (D9,
log 5), nothing pending holds the engine (D18, log 6); the host script is the model's (log 4). -/
def Obligations.GetcForm : Prop :=
  (∀ w : Word, w.extractLsb' 12 4 = 15#4 → w.extractLsb' 0 8 = 0x20#8 → decode w = .trapGetc) ∧
  (∀ s : State, GetcReads (linked s) (exec .trapGetc s))

/-- R157: OUT links and writes the low byte of R0; a failing write raises IoFailure, and the link stays (D9, log 5; the
host script, log 4). -/
def Obligations.OutForm : Prop :=
  (∀ w : Word, w.extractLsb' 12 4 = 15#4 → w.extractLsb' 0 8 = 0x21#8 → decode w = .trapOut) ∧
  (∀ s : State, WritesThen [low (s.reg .r0)] (linked s) id (exec .trapOut s))

/-- R158 as the loop it is: PUTS links and then walks from R0 through `MemRead` (D8, log 13), with a lap a step (log 7). -/
def Obligations.PutsFollowsItsLoop : Prop :=
  (∀ w : Word, w.extractLsb' 12 4 = 15#4 → w.extractLsb' 0 8 = 0x22#8 → decode w = .trapPuts) ∧
  (∀ s : State, LoopsAs putsBytes .puts (s.reg .r0) (linked s) (exec .trapPuts s))

/-- R158 on a string in memory that does not touch KBSR: the low bytes of its words join the output (D28, log 19), or the
first failing write ends the run with the bytes before it written (D9, log 5). -/
def Obligations.PutsWritesTheString : Prop :=
  ∀ (s : State) (ws : List Word), StringAt s (s.reg .r0) ws →
    WritesThen (ws.flatMap putsBytes) (linked s) id (exec .trapPuts s)

/-- R159: IN links, writes the prompt, reads, echoes, stores; the order is D19 (log 18), the prompt open (log 8), what a
failure leaves D9 (log 5), the host script and the hold the model's (log 4, log 6). -/
def Obligations.InForm : Prop :=
  (∀ w : Word, w.extractLsb' 12 4 = 15#4 → w.extractLsb' 0 8 = 0x23#8 → decode w = .trapIn) ∧
  (∀ s : State,
    (NoFailure Config.inPrompt.length s →
      InReads { afterMoves Config.inPrompt.length (linked s) with out := s.out ++ Config.inPrompt } (exec .trapIn s)) ∧
    (∀ n, n < Config.inPrompt.length → NoFailure n s → (moveAt s n).fails = true →
      exec .trapIn s = .next (faultedWith .ioFailure
        { afterMoves (n + 1) (linked s) with out := s.out ++ Config.inPrompt.take n })))

/-- R160 as the loop it is, as for PUTS (log 7, log 13, log 19). -/
def Obligations.PutspFollowsItsLoop : Prop :=
  (∀ w : Word, w.extractLsb' 12 4 = 15#4 → w.extractLsb' 0 8 = 0x24#8 → decode w = .trapPutsp) ∧
  (∀ s : State, LoopsAs putspBytes .putsp (s.reg .r0) (linked s) (exec .trapPutsp s))

/-- R160 on a string in memory that does not touch KBSR: two bytes a word, low byte first, the high one only if non-zero
(D28, log 19), or the first failing write ends the run (D9, log 5). -/
def Obligations.PutspWritesThePackedString : Prop :=
  ∀ (s : State) (ws : List Word), StringAt s (s.reg .r0) ws →
    WritesThen (ws.flatMap putspBytes) (linked s) id (exec .trapPutsp s)

/-- R161: HALT links, writes HALT_MARKER (open, log 8) and halts; a failing write ends the run as IoFailure instead (D9,
log 5; the host script, log 4). -/
def Obligations.HaltForm : Prop :=
  (∀ w : Word, w.extractLsb' 12 4 = 15#4 → w.extractLsb' 0 8 = 0x25#8 → decode w = .trapHalt) ∧
  (∀ s : State, WritesThen Config.haltMarker (linked s) (fun t => { t with run := .halted }) (exec .trapHalt s))

/-- R162: any other vector writes R7 and raises MalformedInstruction (the order is D9, log 5). -/
def Obligations.UndefinedVectorForm : Prop :=
  ∀ v : BitVec 8,
    (∀ w : Word, w.extractLsb' 12 4 = 15#4 → w.extractLsb' 0 8 = v → (v.toNat < 0x20 ∨ 0x25 < v.toNat) →
      decode w = .trapUndefined v) ∧
    (∀ s : State, exec (.trapUndefined v) s = .next (faultedWith .malformedInstruction (linked s)))

/-- R163 and R164: RTI and RES raise UnimplementedOpcode, whatever their low bits, and change nothing else. That the run
is then Faulted(c), and a next state of the model, is D9 (log 5). -/
def Obligations.RtiAndResForms : Prop :=
  (∀ w : Word, w.extractLsb' 12 4 = 8#4 → decode w = .rti) ∧
  (∀ w : Word, w.extractLsb' 12 4 = 13#4 → decode w = .res) ∧
  (∀ s : State, exec .rti s = .next (faultedWith .unimplementedOpcode s)) ∧
  (∀ s : State, exec .res s = .next (faultedWith .unimplementedOpcode s))

/-! ### Rules of the whole machine -/

/-- Every step keeps the invariant: canonical memory (log 1), COND one of NEG, ZRO, POS (R27), a routine under way only
while Running (log 6). -/
def Obligations.EveryStepKeepsTheInvariant : Prop :=
  ∀ s t : State, StateInvariant s → step s = .next t → StateInvariant t

/-- R27 from reset on, for every image, input and host (log 2, log 3, log 4): in every state a run reaches, COND is 1, 2 or
4 and memory is canonical (the model's form, log 1); and a step of a running engine answers a next state (where it raises,
waits or walks on, the model's choice: log 5, log 6, log 7). -/
def Obligations.EveryReachedStateHasOneFlagAndGoesOn : Prop :=
  ∀ (image : List (Word × Word)) (input : List Byte) (script : List HostMove) (t : State),
    Reaches (State.boot image input script) t →
      (t.cond = 1#16 ∨ t.cond = 2#16 ∨ t.cond = 4#16) ∧ t.mem.wf ∧ (t.run = .running → ∃ u, step t = .next u)

/-- Every instruction answers a next state in every state, and a step answers one exactly while the engine is Running
(the dispatch is exhaustive, R112; Halted and Faulted(c) have no step, R113). That an instruction which raises, waits or
walks on without end answers a next state too is the model's choice (log 5, log 6, log 7). -/
def Obligations.EveryInstructionAnswersANextState : Prop :=
  (∀ (i : Instr) (s : State), ∃ t, exec i s = .next t) ∧
  (∀ s : State, s.run = .running ↔ ∃ t, step s = .next t)

/-- R26: COND is written by the flag-setting forms alone, and each either writes the sign of its register or, stopped
before that by a failing or waiting Terminal (D9, log 5; log 6), leaves the register and COND both. -/
def Obligations.OnlyFlagSettersWriteCond : Prop :=
  ∀ (i : Instr) (s t : State), exec i s = .next t →
    (flagSource i = none → t.cond = s.cond) ∧
    (∀ r, flagSource i = some r → t.cond = signOf (t.reg r) ∨ (t.cond = s.cond ∧ t.reg r = s.reg r))

/-- R26, "Read only by BR": for every other form, a different COND before makes no difference after but in COND. -/
def Obligations.OnlyBrReadsCond : Prop :=
  ∀ (i : Instr) (s t u : State) (c : Word), (∀ nzp off, i ≠ .br nzp off) →
    exec i s = .next t → exec i { s with cond := c } = .next u →
      u = { t with cond := u.cond } ∧ (u.cond = t.cond ∨ u.cond = c ∧ t.cond = s.cond)

/-- R22 and the frame of every form: a register that the form does not name as its destination, or that is not R7 of a
call or TRAP or R0 of GETC and IN, is unchanged. -/
def Obligations.OnlyDestinationRegistersChange : Prop :=
  ∀ (i : Instr) (s t : State) (r : Reg), exec i s = .next t → mayWrite i r = false → t.reg r = s.reg r

/-- R23: beyond the fetch, only BR, JMP, JSR and JSRR change the PC. -/
def Obligations.OnlyControlTransfersChangeThePc : Prop :=
  ∀ (i : Instr) (s t : State), exec i s = .next t → changesPc i = false → t.pc = s.pc

/-- R28: a step changes a word of memory other than KBSR and KBDR only when it runs a store. -/
def Obligations.OnlyStoresChangePlainMemory : Prop :=
  (∀ (i : Instr) (s t : State) (a : Word), exec i s = .next t → isStore i = false → a ≠ 0xFE00#16 → a ≠ 0xFE02#16 →
    t.mem.read a = s.mem.read a) ∧
  (∀ (s t : State) (a : Word), step s = .next t → a ≠ 0xFE00#16 → a ≠ 0xFE02#16 → t.mem.read a ≠ s.mem.read a →
    ∃ w u, s.routine = none ∧ memRead s.pc s = .done w u ∧ isStore (decode w) = true)

/-- R34: the output only grows at its end, and the pending input loses bytes only at its head and gains only what the
host brings, in order: its moves during a step (the script is the model's, log 4), its bytes between two steps. -/
def Obligations.TerminalStreamsKeepTheirOrder : Prop :=
  (∀ s t : State, step s = .next t →
    (∃ bs, t.out = s.out ++ bs) ∧
    (∃ n k, t.host = s.host.drop n ∧ t.inQ = (s.inQ ++ (s.host.take n).flatMap HostMove.arrive).drop k)) ∧
  (∀ (s : State) (bs : List Byte), s.hostAppend bs = { s with inQ := s.inQ ++ bs })

/-- R113: the engine goes from Running to Halted in exactly one way, the HALT routine. -/
def Obligations.OnlyHaltHalts : Prop :=
  ∀ s t : State, s.run = .running → step s = .next t → t.run = .halted →
    ∃ w u, s.routine = none ∧ memRead s.pc s = .done w u ∧ decode w = .trapHalt

/-- R180 and R183: the fatal conditions and who raises them: UnimplementedOpcode by RTI and RES, MalformedInstruction by a
TRAP with an undefined vector, IoFailure by a form with a Terminal operation, and only when the host makes one fail (D13,
log 4). -/
def Obligations.OnlyTheNamedFormsRaise : Prop :=
  ∀ (i : Instr) (s t : State) (c : FatalCondition), s.run = .running → exec i s = .next t → t.run = .faulted c →
    (c = .unimplementedOpcode ∧ (i = .rti ∨ i = .res)) ∨
    (c = .malformedInstruction ∧ ∃ v, i = .trapUndefined v) ∨
    (c = .ioFailure ∧ mayFail i = true ∧ ∃ m ∈ s.host, m.fails = true)
end

