-- ==== Sys2Proof/Laws/Encoding.lean ====
section
/-! SUPPORT. Taking a field out of a word that was put together from placed fields, and the two maps between registers
and their numbers. -/

namespace Sys2Proof

@[simp] theorem extract_or (a b : Word) (k l : Nat) :
    (a ||| b).extractLsb' k l = a.extractLsb' k l ||| b.extractLsb' k l := by
  apply BitVec.eq_of_getLsbD_eq
  intro i hi
  simp [hi]

/-- A bit of a placed field. -/
theorem getLsbD_place {n : Nat} (v : BitVec n) (lo j : Nat) :
    (place v lo).getLsbD j = (decide (j < 16) && decide (lo ≤ j) && v.getLsbD (j - lo)) := by
  by_cases h1 : j < 16 <;> by_cases h2 : lo ≤ j <;> simp [place, h1, h2]

theorem getElem_place {n : Nat} (v : BitVec n) (lo j : Nat) (h : j < 16) :
    (place v lo)[j] = (decide (lo ≤ j) && v.getLsbD (j - lo)) := by
  have := getLsbD_place v lo j
  rw [BitVec.getLsbD_eq_getElem h] at this
  simpa [h] using this

/-- A placed field taken out whole. -/
theorem extract_place_same {n : Nat} (v : BitVec n) {lo : Nat} (h : lo + n ≤ 16) :
    (place v lo).extractLsb' lo n = v := by
  apply BitVec.eq_of_getLsbD_eq
  intro i hi
  have h1 : lo + i < 16 := by omega
  rw [BitVec.getLsbD_extractLsb', getLsbD_place]
  simp [hi, h1]

/-- A placed field leaves no bit in the places below it. -/
theorem extract_place_below {n : Nat} (v : BitVec n) {lo k l : Nat} (h : k + l ≤ lo) :
    (place v lo).extractLsb' k l = 0 := by
  apply BitVec.eq_of_getLsbD_eq
  intro i hi
  have h1 : ¬ lo ≤ k + i := by omega
  rw [BitVec.getLsbD_extractLsb', getLsbD_place]
  simp [h1]

/-- A placed field leaves no bit in the places above it. -/
theorem extract_place_above {n : Nat} (v : BitVec n) {lo k l : Nat} (h : lo + n ≤ k) :
    (place v lo).extractLsb' k l = 0 := by
  apply BitVec.eq_of_getLsbD_eq
  intro i hi
  have h1 : v.getLsbD (k + i - lo) = false := BitVec.getLsbD_of_ge _ _ (by omega)
  rw [BitVec.getLsbD_extractLsb', getLsbD_place]
  simp [h1]

@[simp] theorem regOfBits_regBits (r : Reg) : regOfBits (regBits r) = r := by cases r <;> decide

@[simp] theorem regBits_regOfBits (b : BitVec 3) : regBits (regOfBits b) = b := by revert b; decide

/-! ### The decoder, opcode by opcode (R86) -/

theorem decode_br {w : Word} (h : opcodeField w = 0#4) :
    decode w = .br (condBitsField w) (pcOffset9Field w) := by
  unfold decode; rw [h]; rfl

theorem decode_add {w : Word} (h : opcodeField w = 1#4) :
    decode w = if immFlag w then .addImm (regField11 w) (regField8 w) (imm5Field w)
      else .addReg (regField11 w) (regField8 w) (regField2 w) := by
  unfold decode; rw [h]; rfl

theorem decode_ld {w : Word} (h : opcodeField w = 2#4) :
    decode w = .ld (regField11 w) (pcOffset9Field w) := by
  unfold decode; rw [h]; rfl

theorem decode_st {w : Word} (h : opcodeField w = 3#4) :
    decode w = .st (regField11 w) (pcOffset9Field w) := by
  unfold decode; rw [h]; rfl

theorem decode_jsr {w : Word} (h : opcodeField w = 4#4) :
    decode w = if longFlag w then .jsr (pcOffset11Field w) else .jsrr (regField8 w) := by
  unfold decode; rw [h]; rfl

theorem decode_and {w : Word} (h : opcodeField w = 5#4) :
    decode w = if immFlag w then .andImm (regField11 w) (regField8 w) (imm5Field w)
      else .andReg (regField11 w) (regField8 w) (regField2 w) := by
  unfold decode; rw [h]; rfl

theorem decode_ldr {w : Word} (h : opcodeField w = 6#4) :
    decode w = .ldr (regField11 w) (regField8 w) (offset6Field w) := by
  unfold decode; rw [h]; rfl

theorem decode_str {w : Word} (h : opcodeField w = 7#4) :
    decode w = .str (regField11 w) (regField8 w) (offset6Field w) := by
  unfold decode; rw [h]; rfl

theorem decode_rti {w : Word} (h : opcodeField w = 8#4) :
    decode w = .rti := by
  unfold decode; rw [h]; rfl

theorem decode_not {w : Word} (h : opcodeField w = 9#4) :
    decode w = .notReg (regField11 w) (regField8 w) := by
  unfold decode; rw [h]; rfl

theorem decode_ldi {w : Word} (h : opcodeField w = 10#4) :
    decode w = .ldi (regField11 w) (pcOffset9Field w) := by
  unfold decode; rw [h]; rfl

theorem decode_sti {w : Word} (h : opcodeField w = 11#4) :
    decode w = .sti (regField11 w) (pcOffset9Field w) := by
  unfold decode; rw [h]; rfl

theorem decode_jmp {w : Word} (h : opcodeField w = 12#4) :
    decode w = .jmp (regField8 w) := by
  unfold decode; rw [h]; rfl

theorem decode_res {w : Word} (h : opcodeField w = 13#4) :
    decode w = .res := by
  unfold decode; rw [h]; rfl

theorem decode_lea {w : Word} (h : opcodeField w = 14#4) :
    decode w = .lea (regField11 w) (pcOffset9Field w) := by
  unfold decode; rw [h]; rfl

theorem decode_trap {w : Word} (h : opcodeField w = 15#4) :
    decode w = decodeTrap (trapVectorField w) := by
  unfold decode; rw [h]; rfl

/-- A 4-bit opcode is one of sixteen (R81). -/
theorem opcode_cases (b : BitVec 4) :
    b = 0#4 ∨ b = 1#4 ∨ b = 2#4 ∨ b = 3#4 ∨ b = 4#4 ∨ b = 5#4 ∨ b = 6#4 ∨ b = 7#4 ∨
    b = 8#4 ∨ b = 9#4 ∨ b = 10#4 ∨ b = 11#4 ∨ b = 12#4 ∨ b = 13#4 ∨ b = 14#4 ∨ b = 15#4 := by
  revert b; decide

end Sys2Proof
end

