-- ==== Sys2Proof/Laws/Memory.lean ====
section
/-! SUPPORT. The laws of the memory list: read after write, and the canonical form that every operation keeps. The
read laws hold of every list, canonical or not. -/

namespace Sys2Proof.Machine

/-! ### Reading after writing -/

theorem Memory.readAt_erase (m : Memory) (k j : Nat) :
    Memory.readAt (m.erase k) j = if j = k then Memory.unlisted else m.readAt j := by
  induction m with
  | nil => simp [Memory.erase, Memory.readAt]
  | cons c rest ih =>
    simp only [Memory.erase] at ih ⊢
    by_cases hc : c.1 = k
    · by_cases hj : j = k
      · subst hj; simpa [hc] using ih
      · simpa [hc, hj, Memory.readAt, Ne.symm hj] using ih
    · by_cases hj : j = k
      · subst hj; simp [hc, ih, Memory.readAt]
      · simp [hc, hj, ih, Memory.readAt]

theorem Memory.readAt_insert (m : Memory) (k j : Nat) (v : Word) (h : ∀ c ∈ m, c.1 ≠ k) :
    Memory.readAt (m.insert k v) j = if j = k then v else m.readAt j := by
  induction m with
  | nil => by_cases hj : j = k <;> simp [Memory.insert, Memory.readAt, hj, eq_comm (a := k)]
  | cons c rest ih =>
    have hc : c.1 ≠ k := h c (by simp)
    have hr := ih fun d hd => h d (List.mem_cons_of_mem _ hd)
    by_cases hlt : k < c.1
    · by_cases hj : j = k <;> simp [Memory.insert, Memory.readAt, hlt, hj, eq_comm (a := k)]
    · by_cases hj : j = k
      · subst hj; simp [Memory.insert, Memory.readAt, hlt, hc, hr]
      · simp [Memory.insert, Memory.readAt, hlt, hj, hr]

theorem Memory.key_ne_of_mem_erase {m : Memory} {k : Nat} {c : Nat × Word} (h : c ∈ m.erase k) : c.1 ≠ k := by
  simp only [Memory.erase, List.mem_filter] at h
  simpa using h.2

theorem Memory.readAt_write (m : Memory) (a v : Word) (j : Nat) :
    (m.write a v).readAt j = if j = a.toNat then v else m.readAt j := by
  unfold Memory.write
  split
  · next h => simp [Memory.readAt_erase, h]
  · rw [Memory.readAt_insert _ _ _ _ fun c hc => Memory.key_ne_of_mem_erase hc, Memory.readAt_erase]
    split <;> rfl

/-- A read after a write: the written word at that address, the old word at every other (R54, R62). -/
theorem Memory.read_write (m : Memory) (a v b : Word) :
    (m.write a v).read b = if b = a then v else m.read b := by
  simp only [Memory.read, Memory.readAt_write, BitVec.toNat_inj]

@[simp] theorem Memory.read_write_same (m : Memory) (a v : Word) : (m.write a v).read a = v := by
  simp [Memory.read_write]

theorem Memory.read_write_ne (m : Memory) {a b : Word} (v : Word) (h : b ≠ a) :
    (m.write a v).read b = m.read b := by
  simp [Memory.read_write, h]

@[simp] theorem Memory.read_nil (a : Word) : Memory.read [] a = Memory.unlisted := rfl

/-! ### The canonical form -/

theorem Memory.wf_nil : Memory.wf [] := by simp [Memory.wf]

theorem Memory.wf_erase {m : Memory} (h : m.wf) (k : Nat) : Memory.wf (m.erase k) :=
  ⟨h.1.filter _, fun c hc => h.2 c (List.mem_filter.1 hc).1⟩

theorem Memory.mem_insert {m : Memory} {k : Nat} {v : Word} {d : Nat × Word} :
    d ∈ m.insert k v ↔ d = (k, v) ∨ d ∈ m := by
  induction m with
  | nil => simp [Memory.insert]
  | cons c rest ih =>
    by_cases hlt : k < c.1
    · simp [Memory.insert, hlt]
    · simp only [Memory.insert, hlt, if_false, List.mem_cons, ih]
      tauto

theorem Memory.pairwise_insert {m : Memory} {k : Nat} (v : Word)
    (h : m.Pairwise fun c d => c.1 < d.1) (hk : ∀ c ∈ m, c.1 ≠ k) :
    (m.insert k v).Pairwise fun c d => c.1 < d.1 := by
  induction m with
  | nil => simp [Memory.insert]
  | cons c rest ih =>
    obtain ⟨hc, hrest⟩ := List.pairwise_cons.1 h
    have hck : c.1 ≠ k := hk c (by simp)
    by_cases hlt : k < c.1
    · simp only [Memory.insert, hlt, if_true, List.pairwise_cons]
      refine ⟨fun d hd => ?_, hc, hrest⟩
      rcases List.mem_cons.1 hd with rfl | hd
      · exact hlt
      · exact hlt.trans (hc d hd)
    · simp only [Memory.insert, hlt, if_false, List.pairwise_cons]
      refine ⟨fun d hd => ?_, ih hrest fun d hd => hk d (List.mem_cons_of_mem _ hd)⟩
      rcases Memory.mem_insert.1 hd with rfl | hd
      · exact lt_of_le_of_ne (not_lt.1 hlt) hck
      · exact hc d hd

/-- A write keeps the canonical form. -/
theorem Memory.wf_write {m : Memory} (h : m.wf) (a v : Word) : (m.write a v).wf := by
  unfold Memory.write
  split
  · exact Memory.wf_erase h _
  · next hv =>
    refine ⟨Memory.pairwise_insert v (Memory.wf_erase h _).1 fun c hc => Memory.key_ne_of_mem_erase hc, ?_⟩
    intro c hc
    rcases Memory.mem_insert.1 hc with rfl | hc
    · exact ⟨a.isLt, hv⟩
    · exact (Memory.wf_erase h _).2 c hc

/-- A loaded image has the canonical form. -/
theorem Memory.wf_load (image : List (Word × Word)) : (Memory.load image).wf := by
  have : ∀ (l : List (Word × Word)) (m : Memory), m.wf → (l.foldl (fun m c => m.write c.1 c.2) m).wf := by
    intro l
    induction l with
    | nil => exact fun _ h => h
    | cons c rest ih => exact fun m h => ih _ (Memory.wf_write h _ _)
  exact this image [] Memory.wf_nil

/-- The memory of the reset state has the canonical form. -/
theorem State.reset_mem_wf : State.reset.mem.wf := Memory.wf_nil

end Sys2Proof.Machine
end

