-- ==== Sys2Proof/Laws/State.lean ====
section
/-! SUPPORT. One lemma per field per update of the state, and the laws of the register file, so that no later proof
unfolds a record update. -/

namespace Sys2Proof.Machine

/-! ### The register file (R21) -/

@[simp] theorem RegFile.get_set_same (f : RegFile) (r : Reg) (v : Word) : (f.set r v).get r = v := by
  cases r <;> rfl

theorem RegFile.get_set_ne (f : RegFile) {r q : Reg} (v : Word) (h : q ≠ r) : (f.set r v).get q = f.get q := by
  cases r <;> cases q <;> first | rfl | exact absurd rfl h

theorem RegFile.get_set (f : RegFile) (r q : Reg) (v : Word) :
    (f.set r v).get q = if q = r then v else f.get q := by
  by_cases h : q = r
  · subst h; simp
  · simp [h, f.get_set_ne v h]

/-- Two register files that agree on every register are one. -/
theorem RegFile.eq_of_get {f g : RegFile} (h : ∀ r, f.get r = g.get r) : f = g := by
  have h0 := h .r0; have h1 := h .r1; have h2 := h .r2; have h3 := h .r3
  have h4 := h .r4; have h5 := h .r5; have h6 := h .r6; have h7 := h .r7
  cases f; cases g
  simp only [RegFile.get] at h0 h1 h2 h3 h4 h5 h6 h7
  simp [h0, h1, h2, h3, h4, h5, h6, h7]

/-! ### The updates of the state -/

@[simp] theorem State.setReg_regs (s : State) (r : Reg) (v : Word) : (s.setReg r v).regs = s.regs.set r v := rfl
@[simp] theorem State.setReg_pc (s : State) (r : Reg) (v : Word) : (s.setReg r v).pc = s.pc := rfl
@[simp] theorem State.setReg_cond (s : State) (r : Reg) (v : Word) : (s.setReg r v).cond = s.cond := rfl
@[simp] theorem State.setReg_mem (s : State) (r : Reg) (v : Word) : (s.setReg r v).mem = s.mem := rfl
@[simp] theorem State.setReg_run (s : State) (r : Reg) (v : Word) : (s.setReg r v).run = s.run := rfl
@[simp] theorem State.setReg_inQ (s : State) (r : Reg) (v : Word) : (s.setReg r v).inQ = s.inQ := rfl
@[simp] theorem State.setReg_out (s : State) (r : Reg) (v : Word) : (s.setReg r v).out = s.out := rfl
@[simp] theorem State.setReg_host (s : State) (r : Reg) (v : Word) : (s.setReg r v).host = s.host := rfl
@[simp] theorem State.setReg_routine (s : State) (r : Reg) (v : Word) : (s.setReg r v).routine = s.routine := rfl

@[simp] theorem State.setPc_regs (s : State) (a : Word) : (s.setPc a).regs = s.regs := rfl
@[simp] theorem State.setPc_pc (s : State) (a : Word) : (s.setPc a).pc = a := rfl
@[simp] theorem State.setPc_cond (s : State) (a : Word) : (s.setPc a).cond = s.cond := rfl
@[simp] theorem State.setPc_mem (s : State) (a : Word) : (s.setPc a).mem = s.mem := rfl
@[simp] theorem State.setPc_run (s : State) (a : Word) : (s.setPc a).run = s.run := rfl
@[simp] theorem State.setPc_inQ (s : State) (a : Word) : (s.setPc a).inQ = s.inQ := rfl
@[simp] theorem State.setPc_out (s : State) (a : Word) : (s.setPc a).out = s.out := rfl
@[simp] theorem State.setPc_host (s : State) (a : Word) : (s.setPc a).host = s.host := rfl
@[simp] theorem State.setPc_routine (s : State) (a : Word) : (s.setPc a).routine = s.routine := rfl

@[simp] theorem memWrite_regs (a v : Word) (s : State) : (memWrite a v s).regs = s.regs := rfl
@[simp] theorem memWrite_pc (a v : Word) (s : State) : (memWrite a v s).pc = s.pc := rfl
@[simp] theorem memWrite_cond (a v : Word) (s : State) : (memWrite a v s).cond = s.cond := rfl
@[simp] theorem memWrite_mem (a v : Word) (s : State) : (memWrite a v s).mem = s.mem.write a v := rfl
@[simp] theorem memWrite_run (a v : Word) (s : State) : (memWrite a v s).run = s.run := rfl
@[simp] theorem memWrite_inQ (a v : Word) (s : State) : (memWrite a v s).inQ = s.inQ := rfl
@[simp] theorem memWrite_out (a v : Word) (s : State) : (memWrite a v s).out = s.out := rfl
@[simp] theorem memWrite_host (a v : Word) (s : State) : (memWrite a v s).host = s.host := rfl
@[simp] theorem memWrite_routine (a v : Word) (s : State) : (memWrite a v s).routine = s.routine := rfl

@[simp] theorem raise_regs (c : FatalCondition) (s : State) : (raise c s).regs = s.regs := rfl
@[simp] theorem raise_pc (c : FatalCondition) (s : State) : (raise c s).pc = s.pc := rfl
@[simp] theorem raise_cond (c : FatalCondition) (s : State) : (raise c s).cond = s.cond := rfl
@[simp] theorem raise_mem (c : FatalCondition) (s : State) : (raise c s).mem = s.mem := rfl
@[simp] theorem raise_run (c : FatalCondition) (s : State) : (raise c s).run = .faulted c := rfl
@[simp] theorem raise_inQ (c : FatalCondition) (s : State) : (raise c s).inQ = s.inQ := rfl
@[simp] theorem raise_out (c : FatalCondition) (s : State) : (raise c s).out = s.out := rfl
@[simp] theorem raise_host (c : FatalCondition) (s : State) : (raise c s).host = s.host := rfl
@[simp] theorem raise_routine (c : FatalCondition) (s : State) : (raise c s).routine = s.routine := rfl

@[simp] theorem halt_regs (s : State) : (halt s).regs = s.regs := rfl
@[simp] theorem halt_pc (s : State) : (halt s).pc = s.pc := rfl
@[simp] theorem halt_cond (s : State) : (halt s).cond = s.cond := rfl
@[simp] theorem halt_mem (s : State) : (halt s).mem = s.mem := rfl
@[simp] theorem halt_run (s : State) : (halt s).run = .halted := rfl
@[simp] theorem halt_inQ (s : State) : (halt s).inQ = s.inQ := rfl
@[simp] theorem halt_out (s : State) : (halt s).out = s.out := rfl
@[simp] theorem halt_host (s : State) : (halt s).host = s.host := rfl
@[simp] theorem halt_routine (s : State) : (halt s).routine = s.routine := rfl

@[simp] theorem State.takeMove_regs (s : State) : s.takeMove.regs = s.regs := rfl
@[simp] theorem State.takeMove_pc (s : State) : s.takeMove.pc = s.pc := rfl
@[simp] theorem State.takeMove_cond (s : State) : s.takeMove.cond = s.cond := rfl
@[simp] theorem State.takeMove_mem (s : State) : s.takeMove.mem = s.mem := rfl
@[simp] theorem State.takeMove_run (s : State) : s.takeMove.run = s.run := rfl
@[simp] theorem State.takeMove_inQ (s : State) : s.takeMove.inQ = s.inQ ++ s.nextMove.arrive := rfl
@[simp] theorem State.takeMove_out (s : State) : s.takeMove.out = s.out := rfl
@[simp] theorem State.takeMove_host (s : State) : s.takeMove.host = s.host.tail := rfl
@[simp] theorem State.takeMove_routine (s : State) : s.takeMove.routine = s.routine := rfl

@[simp] theorem link_regs (s : State) : (link s).regs = s.regs.set .r7 s.pc := rfl
@[simp] theorem link_pc (s : State) : (link s).pc = s.pc := rfl
@[simp] theorem link_cond (s : State) : (link s).cond = s.cond := rfl
@[simp] theorem link_mem (s : State) : (link s).mem = s.mem := rfl
@[simp] theorem link_run (s : State) : (link s).run = s.run := rfl
@[simp] theorem link_inQ (s : State) : (link s).inQ = s.inQ := rfl
@[simp] theorem link_out (s : State) : (link s).out = s.out := rfl
@[simp] theorem link_host (s : State) : (link s).host = s.host := rfl
@[simp] theorem link_routine (s : State) : (link s).routine = s.routine := rfl

@[simp] theorem setCC_regs (r : Reg) (s : State) : (setCC r s).regs = s.regs := rfl
@[simp] theorem setCC_pc (r : Reg) (s : State) : (setCC r s).pc = s.pc := rfl
@[simp] theorem setCC_cond (r : Reg) (s : State) : (setCC r s).cond = condOf (s.reg r) := rfl
@[simp] theorem setCC_mem (r : Reg) (s : State) : (setCC r s).mem = s.mem := rfl
@[simp] theorem setCC_run (r : Reg) (s : State) : (setCC r s).run = s.run := rfl
@[simp] theorem setCC_inQ (r : Reg) (s : State) : (setCC r s).inQ = s.inQ := rfl
@[simp] theorem setCC_out (r : Reg) (s : State) : (setCC r s).out = s.out := rfl
@[simp] theorem setCC_host (r : Reg) (s : State) : (setCC r s).host = s.host := rfl
@[simp] theorem setCC_routine (r : Reg) (s : State) : (setCC r s).routine = s.routine := rfl

@[simp] theorem State.hostAppend_regs (s : State) (bs : List Byte) : (s.hostAppend bs).regs = s.regs := rfl
@[simp] theorem State.hostAppend_pc (s : State) (bs : List Byte) : (s.hostAppend bs).pc = s.pc := rfl
@[simp] theorem State.hostAppend_cond (s : State) (bs : List Byte) : (s.hostAppend bs).cond = s.cond := rfl
@[simp] theorem State.hostAppend_mem (s : State) (bs : List Byte) : (s.hostAppend bs).mem = s.mem := rfl
@[simp] theorem State.hostAppend_run (s : State) (bs : List Byte) : (s.hostAppend bs).run = s.run := rfl
@[simp] theorem State.hostAppend_inQ (s : State) (bs : List Byte) : (s.hostAppend bs).inQ = s.inQ ++ bs := rfl
@[simp] theorem State.hostAppend_out (s : State) (bs : List Byte) : (s.hostAppend bs).out = s.out := rfl
@[simp] theorem State.hostAppend_host (s : State) (bs : List Byte) : (s.hostAppend bs).host = s.host := rfl
@[simp] theorem State.hostAppend_routine (s : State) (bs : List Byte) : (s.hostAppend bs).routine = s.routine := rfl

@[simp] theorem writeResult_regs (dr : Reg) (v : Word) (s : State) : (writeResult dr v s).regs = s.regs.set dr v := rfl
@[simp] theorem writeResult_pc (dr : Reg) (v : Word) (s : State) : (writeResult dr v s).pc = s.pc := rfl
@[simp] theorem writeResult_cond (dr : Reg) (v : Word) (s : State) : (writeResult dr v s).cond = condOf v := by
  simp [writeResult, State.reg]
@[simp] theorem writeResult_mem (dr : Reg) (v : Word) (s : State) : (writeResult dr v s).mem = s.mem := rfl
@[simp] theorem writeResult_run (dr : Reg) (v : Word) (s : State) : (writeResult dr v s).run = s.run := rfl
@[simp] theorem writeResult_inQ (dr : Reg) (v : Word) (s : State) : (writeResult dr v s).inQ = s.inQ := rfl
@[simp] theorem writeResult_out (dr : Reg) (v : Word) (s : State) : (writeResult dr v s).out = s.out := rfl
@[simp] theorem writeResult_host (dr : Reg) (v : Word) (s : State) : (writeResult dr v s).host = s.host := rfl
@[simp] theorem writeResult_routine (dr : Reg) (v : Word) (s : State) : (writeResult dr v s).routine = s.routine := rfl

/-- `x[DR] <- v; SetCC(DR)` as one record update: the flags are those of the value just written (R25). -/
theorem writeResult_eq (dr : Reg) (v : Word) (s : State) :
    writeResult dr v s = { s with regs := s.regs.set dr v, cond := condOf v } := by
  simp [writeResult, setCC, State.setReg, State.reg]

@[simp] theorem State.reg_eq (s : State) (r : Reg) : s.reg r = s.regs.get r := rfl

@[simp] theorem State.readWord_eq (s : State) (a : Word) : s.readWord a = s.mem.read a := rfl

/-! ### The result of a statement -/

@[simp] theorem Result.andThen_done {α : Type} (a : α) (s : State) (k : α → State → State) :
    (Result.done a s).andThen k = k a s := rfl

@[simp] theorem Result.andThen_stopped {α : Type} (s : State) (k : α → State → State) :
    (Result.stopped s : Result α).andThen k = s := rfl

end Sys2Proof.Machine
end

