-- ==== Sys2Proof/Laws/Ops.lean ====
section
/-! SUPPORT. What the shared operations can do, said once each: the Terminal operations, `memRead`, the byte loop, the
string walk, the routine bodies, `resume` and `fetch`. Later proofs cite these and do not unfold the operations. -/

namespace Sys2Proof.Machine

/-- Every change that Terminal operations and memory reads can make: two words of memory (R52), the run state by
IoFailure (R183), the output at its end and the pending input by the host's moves and at its head (R34). -/
structure Touches (s t : State) : Prop where
  regs : t.regs = s.regs
  pc : t.pc = s.pc
  cond : t.cond = s.cond
  routine : t.routine = s.routine
  mem : ∀ a, a ≠ kbsrAddr → a ≠ kbdrAddr → t.mem.read a = s.mem.read a
  memWf : s.mem.wf → t.mem.wf
  run : t.run = s.run ∨ t.run = .faulted .ioFailure ∧ ∃ m ∈ s.host, m.fails = true
  out : s.out <+: t.out
  io : ∃ n k, t.host = s.host.drop n ∧ t.inQ = (s.inQ ++ (s.host.take n).flatMap HostMove.arrive).drop k

theorem Touches.refl (s : State) : Touches s s :=
  ⟨rfl, rfl, rfl, rfl, fun _ _ _ => rfl, id, .inl rfl, List.prefix_rfl, 0, 0, by simp, by simp⟩

theorem Touches.trans {s t u : State} (h : Touches s t) (k : Touches t u) : Touches s u where
  regs := k.regs.trans h.regs
  pc := k.pc.trans h.pc
  cond := k.cond.trans h.cond
  routine := k.routine.trans h.routine
  mem a h1 h2 := (k.mem a h1 h2).trans (h.mem a h1 h2)
  memWf w := k.memWf (h.memWf w)
  run := by
    obtain ⟨n, -, hh, -⟩ := h.io
    rcases k.run with hk | ⟨hk, m, hm, hf⟩
    · rcases h.run with h' | ⟨h', e⟩
      · exact .inl (hk.trans h')
      · exact .inr ⟨hk.trans h', e⟩
    · exact .inr ⟨hk, m, List.mem_of_mem_drop (hh ▸ hm), hf⟩
  out := h.out.trans k.out
  io := by
    obtain ⟨n, i, h1, h2⟩ := h.io
    obtain ⟨n', i', k1, k2⟩ := k.io
    refine ⟨n + n', min i (s.inQ ++ (s.host.take n).flatMap HostMove.arrive).length + i', ?_, ?_⟩
    · rw [k1, h1, List.drop_drop]
    · rw [k2, h2, h1, List.take_add, List.flatMap_append, ← List.append_assoc, ← List.drop_drop,
        List.drop_append_of_le_length (l₁ := s.inQ ++ _) (Nat.min_le_right _ _)]
      congr 2
      rcases Nat.le_total i (s.inQ ++ (s.host.take n).flatMap HostMove.arrive).length with hle | hle
      · rw [Nat.min_eq_left hle]
      · rw [Nat.min_eq_right hle, List.drop_eq_nil_of_le hle, List.drop_length]

/-! ### The host's moves -/

theorem State.nextMove_fails_mem {s : State} (h : s.nextMove.fails = true) : s.nextMove ∈ s.host := by
  unfold State.nextMove at h ⊢
  cases hs : s.host with
  | nil => simp [hs, HostMove.quiet] at h
  | cons m ms => simp

theorem State.nextMove_arrive (s : State) : s.nextMove.arrive = (s.host.take 1).flatMap HostMove.arrive := by
  unfold State.nextMove
  cases s.host <;> simp [HostMove.quiet]

theorem Touches.takeMove (s : State) : Touches s s.takeMove :=
  ⟨rfl, rfl, rfl, rfl, fun _ _ _ => rfl, id, .inl rfl, List.prefix_rfl, 1, 0, by simp, by simp [State.nextMove_arrive]⟩

/-- A failed Terminal operation: the host made its move and IoFailure is raised (R183). -/
theorem Touches.takeMove_fails {s : State} (h : s.nextMove.fails = true) :
    Touches s (raise .ioFailure s.takeMove) :=
  ⟨rfl, rfl, rfl, rfl, fun _ _ _ => rfl, id, .inr ⟨rfl, _, State.nextMove_fails_mem h, h⟩, List.prefix_rfl, 1, 0, by simp,
    by simp [State.nextMove_arrive]⟩

/-! ### TermRead and TermWrite -/

/-- Everything the wait for a byte can do: the byte, or the wait goes on; it never fails (R14, R212). -/
theorem termAwait_cases (s : State) :
    (s.takeMove.inQ = [] ∧ termAwait s = .hold s.takeMove) ∨
    (∃ b q, s.takeMove.inQ = b :: q ∧ termAwait s = .byte b { s.takeMove with inQ := q }) := by
  unfold termAwait
  cases hq : s.takeMove.inQ with
  | nil => exact .inl ⟨rfl, rfl⟩
  | cons b q => exact .inr ⟨b, q, rfl, rfl⟩

/-- Everything `TermRead` can do (R14). -/
theorem termRead_cases (s : State) :
    (s.nextMove.fails = true ∧ termRead s = .failed s.takeMove) ∨
    (s.nextMove.fails = false ∧ s.takeMove.inQ = [] ∧ termRead s = .hold s.takeMove) ∨
    (∃ b q, s.nextMove.fails = false ∧ s.takeMove.inQ = b :: q ∧
      termRead s = .byte b { s.takeMove with inQ := q }) := by
  unfold termRead
  cases hf : s.nextMove.fails
  · rcases termAwait_cases s with ⟨hq, h⟩ | ⟨b, q, hq, h⟩
    · exact .inr (.inl ⟨rfl, hq, by simp [h]⟩)
    · exact .inr (.inr ⟨b, q, rfl, hq, by simp [h]⟩)
  · exact .inl ⟨rfl, by simp⟩

theorem Touches.popHead {s : State} {b : Byte} {q : List Byte} (h : s.inQ = b :: q) :
    Touches s { s with inQ := q } :=
  ⟨rfl, rfl, rfl, rfl, fun _ _ _ => rfl, id, .inl rfl, List.prefix_rfl, 0, 1, by simp, by simp [h]⟩

/-- Everything `TermWrite` can do (R15). -/
theorem termWrite_cases (b : Byte) (s : State) :
    (s.nextMove.fails = true ∧ termWrite b s = .stopped (raise .ioFailure s.takeMove)) ∨
    (s.nextMove.fails = false ∧ termWrite b s = .done () { s.takeMove with out := s.out ++ [b] }) := by
  unfold termWrite
  cases hf : s.nextMove.fails
  · exact .inr ⟨rfl, by simp⟩
  · exact .inl ⟨rfl, by simp⟩

theorem Touches.appendOut (s : State) (bs : List Byte) : Touches s { s with out := s.out ++ bs } :=
  ⟨rfl, rfl, rfl, rfl, fun _ _ _ => rfl, id, .inl rfl, List.prefix_append _ _, 0, 0, by simp, by simp⟩

/-- A statement that reads or writes the Terminal or memory and nothing else: it completes and leaves the run state
alone, or it raises IoFailure (R12, R183); both within `Touches`. -/
def Result.Touching {α : Type} (s : State) (r : Result α) : Prop :=
  match r with
  | .done _ t => Touches s t ∧ t.run = s.run
  | .stopped t => Touches s t ∧ t.run = .faulted .ioFailure

theorem termWrite_touching (b : Byte) (s : State) : (termWrite b s).Touching s := by
  rcases termWrite_cases b s with ⟨hf, h⟩ | ⟨-, h⟩
  · rw [h]; exact ⟨Touches.takeMove_fails hf, rfl⟩
  · rw [h]; exact ⟨(Touches.takeMove s).trans (Touches.appendOut s.takeMove [b]), rfl⟩

/-- Two statements one after the other. -/
theorem Result.Touching.after {α : Type} {s t : State} {r : Result α} (h : Touches s t) (hr : t.run = s.run)
    (k : r.Touching t) : r.Touching s := by
  cases r with
  | done a u => exact ⟨h.trans k.1, k.2.trans hr⟩
  | stopped u => exact ⟨h.trans k.1, k.2⟩

theorem termWriteEach_touching (bs : List Byte) (s : State) : (termWriteEach bs s).Touching s := by
  induction bs generalizing s with
  | nil => exact ⟨Touches.refl s, rfl⟩
  | cons b rest ih =>
    have h := termWrite_touching b s
    unfold termWriteEach
    cases hw : termWrite b s with
    | stopped t => rw [hw] at h; exact h
    | done x t => rw [hw] at h; exact (ih t).after h.1 h.2

/-- A write that the host lets succeed, where its script has ended. -/
theorem termWrite_quiet (b : Byte) {s : State} (h : s.host = []) :
    termWrite b s = .done () { s with out := s.out ++ [b] } := by
  cases s
  simp only at h
  subst h
  simp [termWrite, State.nextMove, State.takeMove, HostMove.quiet]

/-- Where the host's script has ended, the byte loop writes every byte. -/
theorem termWriteEach_quiet (bs : List Byte) {s : State} (h : s.host = []) :
    termWriteEach bs s = .done () { s with out := s.out ++ bs } := by
  induction bs generalizing s with
  | nil => simp [termWriteEach]
  | cons b rest ih =>
    simp only [termWriteEach, termWrite_quiet b h]
    rw [ih (s := { s with out := s.out ++ [b] }) h]
    simp

/-- `termWriteAll` is the loop `for each byte: TermWrite` (R159, R161). -/
theorem termWriteAll_eq (bs : List Byte) (s : State) : termWriteAll bs s = termWriteEach bs s := by
  unfold termWriteAll
  split
  · next h => rw [termWriteEach_quiet bs h]
  · rfl

theorem termWriteAll_touching (bs : List Byte) (s : State) : (termWriteAll bs s).Touching s :=
  termWriteAll_eq bs s ▸ termWriteEach_touching bs s

/-! ### MemRead -/

theorem Touches.writeKbsr (s : State) (v : Word) : Touches s (memWrite kbsrAddr v s) :=
  ⟨rfl, rfl, rfl, rfl, fun _ h _ => Memory.read_write_ne _ _ h, fun h => Memory.wf_write h _ _, .inl rfl, List.prefix_rfl,
    0, 0, by simp, by simp⟩

theorem Touches.writeKbdr (s : State) (v : Word) : Touches s (memWrite kbdrAddr v s) :=
  ⟨rfl, rfl, rfl, rfl, fun _ _ h => Memory.read_write_ne _ _ h, fun h => Memory.wf_write h _ _, .inl rfl, List.prefix_rfl,
    0, 0, by simp, by simp⟩

/-- Everything `KbsrRefresh` can do (R52): no key pending; a key, and the read fails; a key, and it moves to KBDR. -/
theorem kbsrRefresh_cases (s : State) :
    (s.takeMove.inQ = [] ∧ kbsrRefresh s = .done () (memWrite kbsrAddr 0 s.takeMove)) ∨
    (s.takeMove.inQ ≠ [] ∧ s.takeMove.nextMove.fails = true ∧
      kbsrRefresh s = .stopped (raise .ioFailure s.takeMove.takeMove)) ∨
    (∃ b q, s.takeMove.nextMove.fails = false ∧ s.takeMove.takeMove.inQ = b :: q ∧ s.takeMove.inQ ≠ [] ∧
      kbsrRefresh s = .done ()
        (memWrite kbdrAddr (zext16 b) (memWrite kbsrAddr kbsrReady { s.takeMove.takeMove with inQ := q }))) := by
  by_cases hq : s.takeMove.inQ = []
  · exact .inl ⟨hq, by simp only [kbsrRefresh, termPoll, hq]; rfl⟩
  · have hp : (!s.takeMove.inQ.isEmpty) = true := by simp only [Bool.not_eq_true', List.isEmpty_eq_false_iff]; exact hq
    rcases termRead_cases s.takeMove with ⟨hf, h⟩ | ⟨-, hn, -⟩ | ⟨b, q, hf, hb, h⟩
    · exact .inr (.inl ⟨hq, hf, by simp only [kbsrRefresh, termPoll, hp, if_true, h]⟩)
    · rw [State.takeMove_inQ, List.append_eq_nil_iff] at hn
      exact absurd hn.1 hq
    · exact .inr (.inr ⟨b, q, hf, hb, hq, by simp only [kbsrRefresh, termPoll, hp, if_true, h]⟩)

theorem kbsrRefresh_touching (s : State) : (kbsrRefresh s).Touching s := by
  rcases kbsrRefresh_cases s with ⟨-, h⟩ | ⟨-, hf, h⟩ | ⟨b, q, -, hb, -, h⟩
  · rw [h]; exact ⟨(Touches.takeMove s).trans (Touches.writeKbsr _ _), rfl⟩
  · rw [h]; exact ⟨(Touches.takeMove s).trans (Touches.takeMove_fails hf), rfl⟩
  · rw [h]
    exact ⟨((((Touches.takeMove s).trans (Touches.takeMove _)).trans (Touches.popHead hb)).trans
      (Touches.writeKbsr _ _)).trans (Touches.writeKbdr _ _), rfl⟩

/-- A read of any address but 0xFE00 answers the stored word and changes nothing (R53). -/
theorem memRead_of_ne {a : Word} (h : a ≠ kbsrAddr) (s : State) : memRead a s = .done (s.mem.read a) s := by
  simp [memRead, h]

theorem memRead_touching (a : Word) (s : State) : (memRead a s).Touching s := by
  unfold memRead
  split
  · have h := kbsrRefresh_touching s
    cases hk : kbsrRefresh s <;> rw [hk] at h <;> exact h
  · exact ⟨Touches.refl s, rfl⟩

/-- Everything a read of 0xFE00 can do (R51, R52). -/
theorem memRead_kbsr_cases (s : State) :
    (s.takeMove.inQ = [] ∧ memRead kbsrAddr s = .done 0 (memWrite kbsrAddr 0 s.takeMove)) ∨
    (s.takeMove.inQ ≠ [] ∧ s.takeMove.nextMove.fails = true ∧
      memRead kbsrAddr s = .stopped (raise .ioFailure s.takeMove.takeMove)) ∨
    (∃ b q, s.takeMove.nextMove.fails = false ∧ s.takeMove.takeMove.inQ = b :: q ∧ s.takeMove.inQ ≠ [] ∧
      memRead kbsrAddr s = .done kbsrReady
        (memWrite kbdrAddr (zext16 b) (memWrite kbsrAddr kbsrReady { s.takeMove.takeMove with inQ := q }))) := by
  rcases kbsrRefresh_cases s with ⟨hq, h⟩ | ⟨hq, hf, h⟩ | ⟨b, q, hf, hb, hq, h⟩
  · exact .inl ⟨hq, by simp [memRead, h]⟩
  · exact .inr (.inl ⟨hq, hf, by simp [memRead, h]⟩)
  · refine .inr (.inr ⟨b, q, hf, hb, hq, ?_⟩)
    have hne : kbsrAddr ≠ kbdrAddr := by decide
    simp [memRead, h, Memory.read_write_ne _ _ hne]

/-! ### The string walk, the routine bodies and the fetch -/

theorem emitLow_touching (w : Word) (s : State) : (emitLow w s).Touching s := termWrite_touching _ s

theorem emitPacked_touching (w : Word) (s : State) : (emitPacked w s).Touching s := by
  have h := termWrite_touching (lowByte w) s
  unfold emitPacked
  cases hw : termWrite (lowByte w) s with
  | stopped t => rw [hw] at h; exact h
  | done x t =>
    rw [hw] at h
    by_cases hb : highByte w = 0x00#8
    · simpa [hb] using h
    · simpa [hb] using (termWrite_touching (highByte w) t).after h.1 h.2

/-- The three ways a piece of a routine ends in a step: it is complete and has written what `f` says, IoFailure was
raised, or it is held as the routine `r`. -/
inductive RoutineEnd (s : State) (f : State → State) (r : Routine → Prop) : State → Prop where
  | complete {t : State} : Touches s t → t.run = s.run → RoutineEnd s f r (f t)
  | failed {t : State} : Touches s t → t.run = .faulted .ioFailure → RoutineEnd s f r t
  | held {t : State} {x : Routine} : Touches s t → t.run = s.run → r x → RoutineEnd s f r { t with routine := some x }

theorem RoutineEnd.after {s t u : State} {f : State → State} {r : Routine → Prop} (h : Touches s t)
    (hr : t.run = s.run) (k : RoutineEnd t f r u) : RoutineEnd s f r u := by
  cases k with
  | complete k e => exact .complete (h.trans k) (e.trans hr)
  | failed k e => exact .failed (h.trans k) e
  | held k e x => exact .held (h.trans k) (e.trans hr) x

/-- Everything a string walk can do (R158, R160). -/
theorem stringWalk_end {emit : Word → State → Result Unit} (held : Word → Routine)
    (he : ∀ w s, (emit w s).Touching s) (n : Nat) (a : Word) (s : State) :
    RoutineEnd s id (fun x => ∃ b, x = held b) (stringWalk emit held n a s) := by
  induction n generalizing a s with
  | zero => exact .held (Touches.refl s) rfl ⟨a, rfl⟩
  | succ k ih =>
    have hm := memRead_touching a s
    unfold stringWalk
    cases hr : memRead a s with
    | stopped t => rw [hr] at hm; exact .failed hm.1 hm.2
    | done w t =>
      rw [hr] at hm
      by_cases hw : w = 0x0000#16
      · simpa [hw] using RoutineEnd.complete (f := id) hm.1 hm.2
      · have h' := he w t
        simp only [Result.andThen_done, hw, if_false]
        cases hx : emit w t with
        | stopped u => rw [hx] at h'; exact .failed (hm.1.trans h'.1) h'.2
        | done x u =>
          rw [hx] at h'
          exact (ih (a + 1) u).after (hm.1.trans h'.1) (h'.2.trans hm.2)

theorem putsBody_end (a : Word) (s : State) :
    RoutineEnd s id (fun x => ∃ b, x = .puts b) (putsBody a s) := stringWalk_end .puts emitLow_touching _ a s

theorem putspBody_end (a : Word) (s : State) :
    RoutineEnd s id (fun x => ∃ b, x = .putsp b) (putspBody a s) := stringWalk_end .putsp emitPacked_touching _ a s

/-- A read within `Touches`: it gave a byte, waits or failed. -/
def ReadOutcome.Touching (s : State) (r : ReadOutcome) : Prop :=
  match r with
  | .byte _ t => Touches s t ∧ t.run = s.run
  | .hold t => Touches s t ∧ t.run = s.run
  | .failed t => Touches s (raise .ioFailure t)

theorem termAwait_touching (s : State) : (termAwait s).Touching s := by
  rcases termAwait_cases s with ⟨-, h⟩ | ⟨b, q, hq, h⟩
  · rw [h]; exact ⟨Touches.takeMove s, rfl⟩
  · rw [h]; exact ⟨(Touches.takeMove s).trans (Touches.popHead hq), rfl⟩

theorem termRead_touching (s : State) : (termRead s).Touching s := by
  unfold termRead
  split
  · next hf => exact Touches.takeMove_fails hf
  · exact termAwait_touching s

/-- Everything GETC can do from the end of its read on (R156). -/
theorem getcAfter_end {s : State} {r : ReadOutcome} (h : r.Touching s) :
    ∃ c : Byte, RoutineEnd s (writeResult .r0 (zext16 c)) (fun x => x = .getc) (getcAfter r) := by
  cases r with
  | byte b t => exact ⟨b, .complete h.1 h.2⟩
  | hold t => exact ⟨0, .held h.1 h.2 rfl⟩
  | failed t => exact ⟨0, .failed h rfl⟩

/-- Everything IN can do from the end of its read on (R159). -/
theorem inAfter_end {s : State} {r : ReadOutcome} (h : r.Touching s) :
    ∃ c : Byte, RoutineEnd s (writeResult .r0 (zext16 c)) (fun x => x = .inn) (inAfter r) := by
  cases r with
  | hold t => exact ⟨0, .held h.1 h.2 rfl⟩
  | failed t => exact ⟨0, .failed h rfl⟩
  | byte b t =>
    refine ⟨b, ?_⟩
    have hw := termWrite_touching b t
    cases hx : termWrite b t with
    | stopped u =>
      rw [hx] at hw
      simp only [inAfter, hx, Result.andThen_stopped]
      exact .failed (h.1.trans hw.1) hw.2
    | done x u =>
      rw [hx] at hw
      simp only [inAfter, hx, Result.andThen_done]
      exact .complete (h.1.trans hw.1) (hw.2.trans h.2)

/-- Everything the fetch can do (R110, R111): the PC goes up by one, or IoFailure is raised and it does not. -/
theorem fetch_cases (s : State) :
    (∃ w t, memRead s.pc s = .done w t ∧ Touches s t ∧ t.run = s.run ∧ fetch s = .done w (t.setPc (s.pc + 1))) ∨
    (∃ t, memRead s.pc s = .stopped t ∧ Touches s t ∧ t.run = .faulted .ioFailure ∧ fetch s = .stopped t) := by
  have hm := memRead_touching s.pc s
  cases hr : memRead s.pc s with
  | done w t =>
    rw [hr] at hm
    exact .inl ⟨w, t, rfl, hm.1, hm.2, by simp [fetch, hr, hm.1.pc]⟩
  | stopped t =>
    rw [hr] at hm
    exact .inr ⟨t, rfl, hm.1, hm.2, by simp [fetch, hr]⟩

/-- Everything a step of a running engine can do. -/
theorem step_cases {s : State} (hrun : s.run = .running) :
    (∃ r, s.routine = some r ∧ step s = .next (resume r s)) ∨
    (∃ w t, s.routine = none ∧ memRead s.pc s = .done w t ∧ Touches s t ∧ t.run = .running ∧
      step s = exec (decode w) (t.setPc (s.pc + 1))) ∨
    (∃ t, s.routine = none ∧ memRead s.pc s = .stopped t ∧ Touches s t ∧ t.run = .faulted .ioFailure ∧
      step s = .next t) := by
  cases hr : s.routine with
  | some r => exact .inl ⟨r, rfl, by simp [step, hrun, hr]⟩
  | none =>
    rcases fetch_cases s with ⟨w, t, h1, h2, h3, h4⟩ | ⟨t, h1, h2, h3, h4⟩
    · exact .inr (.inl ⟨w, t, rfl, h1, h2, h3.trans hrun, by simp [step, hrun, hr, h4]⟩)
    · exact .inr (.inr ⟨t, rfl, h1, h2, h3, by simp [step, hrun, hr, h4]⟩)

end Sys2Proof.Machine
end

