-- ==== Sys2Proof/Laws/PerInstr.lean ====
section
/-! SUPPORT. The family OpcodeField: the encoder puts each instruction's opcode, by the map of R81, into bits 15:12. -/

namespace Sys2Proof.Laws

/-- The opcode number of a form (R81). -/
def opcodeBits (i : Instr) : BitVec 4 :=
  match i with
  | .br _ _ => 0
  | .addReg _ _ _ => 1
  | .addImm _ _ _ => 1
  | .ld _ _ => 2
  | .st _ _ => 3
  | .jsr _ => 4
  | .jsrr _ => 4
  | .andReg _ _ _ => 5
  | .andImm _ _ _ => 5
  | .ldr _ _ _ => 6
  | .str _ _ _ => 7
  | .rti => 8
  | .notReg _ _ => 9
  | .ldi _ _ => 10
  | .sti _ _ => 11
  | .jmp _ => 12
  | .res => 13
  | .lea _ _ => 14
  | .trapGetc => 15
  | .trapOut => 15
  | .trapPuts => 15
  | .trapIn => 15
  | .trapPutsp => 15
  | .trapHalt => 15
  | .trapUndefined _ => 15

namespace OpcodeField

/-- Bits 15:12 of the word of `i` are its opcode. -/
def Statement (i : Instr) : Prop := opcodeField (encode i) = opcodeBits i

theorem br (nzp : BitVec 3) (off : BitVec 9) : Statement (.br nzp off) := by
  simp [Statement, opcodeField, encode, opcodeBits, extract_place_same, extract_place_above]

theorem addReg (dr sr1 sr2 : Reg) : Statement (.addReg dr sr1 sr2) := by
  simp [Statement, opcodeField, encode, opcodeBits, extract_place_same, extract_place_above]

theorem addImm (dr sr1 : Reg) (imm : BitVec 5) : Statement (.addImm dr sr1 imm) := by
  simp [Statement, opcodeField, encode, opcodeBits, extract_place_same, extract_place_above]

theorem ld (dr : Reg) (off : BitVec 9) : Statement (.ld dr off) := by
  simp [Statement, opcodeField, encode, opcodeBits, extract_place_same, extract_place_above]

theorem st (sr : Reg) (off : BitVec 9) : Statement (.st sr off) := by
  simp [Statement, opcodeField, encode, opcodeBits, extract_place_same, extract_place_above]

theorem jsr (off : BitVec 11) : Statement (.jsr off) := by
  simp [Statement, opcodeField, encode, opcodeBits, extract_place_same, extract_place_above]

theorem jsrr (base : Reg) : Statement (.jsrr base) := by
  simp [Statement, opcodeField, encode, opcodeBits, extract_place_same, extract_place_above]

theorem andReg (dr sr1 sr2 : Reg) : Statement (.andReg dr sr1 sr2) := by
  simp [Statement, opcodeField, encode, opcodeBits, extract_place_same, extract_place_above]

theorem andImm (dr sr1 : Reg) (imm : BitVec 5) : Statement (.andImm dr sr1 imm) := by
  simp [Statement, opcodeField, encode, opcodeBits, extract_place_same, extract_place_above]

theorem ldr (dr base : Reg) (off : BitVec 6) : Statement (.ldr dr base off) := by
  simp [Statement, opcodeField, encode, opcodeBits, extract_place_same, extract_place_above]

theorem str (sr base : Reg) (off : BitVec 6) : Statement (.str sr base off) := by
  simp [Statement, opcodeField, encode, opcodeBits, extract_place_same, extract_place_above]

theorem rti : Statement .rti := by
  unfold Statement; decide

theorem notReg (dr sr : Reg) : Statement (.notReg dr sr) := by
  simp [Statement, opcodeField, encode, opcodeBits, extract_place_same, extract_place_above]

theorem ldi (dr : Reg) (off : BitVec 9) : Statement (.ldi dr off) := by
  simp [Statement, opcodeField, encode, opcodeBits, extract_place_same, extract_place_above]

theorem sti (sr : Reg) (off : BitVec 9) : Statement (.sti sr off) := by
  simp [Statement, opcodeField, encode, opcodeBits, extract_place_same, extract_place_above]

theorem jmp (base : Reg) : Statement (.jmp base) := by
  simp [Statement, opcodeField, encode, opcodeBits, extract_place_same, extract_place_above]

theorem res : Statement .res := by
  unfold Statement; decide

theorem lea (dr : Reg) (off : BitVec 9) : Statement (.lea dr off) := by
  simp [Statement, opcodeField, encode, opcodeBits, extract_place_same, extract_place_above]

theorem trapGetc : Statement .trapGetc := by
  unfold Statement; decide

theorem trapOut : Statement .trapOut := by
  unfold Statement; decide

theorem trapPuts : Statement .trapPuts := by
  unfold Statement; decide

theorem trapIn : Statement .trapIn := by
  unfold Statement; decide

theorem trapPutsp : Statement .trapPutsp := by
  unfold Statement; decide

theorem trapHalt : Statement .trapHalt := by
  unfold Statement; decide

theorem trapUndefined (v : BitVec 8) : Statement (.trapUndefined v) := by
  simp [Statement, opcodeField, encode, opcodeBits, extract_place_same, extract_place_above]

end OpcodeField

end Sys2Proof.Laws
end

