-- ==== Sys2Proof/Tests/Slice0.lean ====
section
/-! SUPPORT. The model's own tests: ill-formed terms, words written out from the formats of R84, one-step vectors of
95_test_vectors.md (each cited by its number there), and for every statement with hypotheses a witness that meets them. -/

open Sys2Proof Sys2Proof.Machine Sys2Proof.Claims

namespace Sys2Proof.Tests

/-! ### Helpers -/

/-- Registers with R0 to R3 given. -/
def regs4 (a b c d : Word) : RegFile := ⟨a, b, c, d, 0, 0, 0, 0⟩

/-- The reset state at `pc`, with memory words, registers and pending input. -/
def start (pc : Word) (image : List (Word × Word)) (r : RegFile) (input : List Byte) : State :=
  { State.boot image input [] with pc := pc, regs := r }

/-- What `f` reads in the state after one step, if there is one. -/
def after {α : Type} (f : State → α) (s : State) : Option α :=
  match step s with
  | .next t => some (f t)
  | .fault _ => none
  | .refused _ => none

/-- A register, COND and the PC. -/
def result (r : Reg) (t : State) : Word × Word × Word := (t.reg r, t.cond, t.pc)

/-! ### Ill-formed terms (R155, R162) -/

theorem test_wellformed_refuses_a_defined_vector :
    WellFormed (.trapUndefined 0x20#8) = false ∧ WellFormed (.trapUndefined 0x23#8) = false ∧
    WellFormed (.trapUndefined 0x25#8) = false := by decide

theorem test_wellformed_accepts_the_neighbours :
    WellFormed (.trapUndefined 0x1F#8) = true ∧ WellFormed (.trapUndefined 0x26#8) = true := by decide

/-! ### Decoding: words written out bit by bit from R84, the readings of table 2.1 -/

theorem test_decode_br : decode 0b0000001111111101#16 = .br 0b001#3 0x1FD#9 ∧ decode 0x0000#16 = .br 0#3 0#9 := by decide
theorem test_decode_addReg : decode 0b0001010000000001#16 = .addReg .r2 .r0 .r1 ∧
    decode 0b0001000000011001#16 = .addReg .r0 .r0 .r1 := by decide
theorem test_decode_addImm : decode 0b0001000000100001#16 = .addImm .r0 .r0 0x01#5 := by decide
theorem test_decode_ld : decode 0b0010001000000001#16 = .ld .r1 1#9 := by decide
theorem test_decode_st : decode 0b0011001000000010#16 = .st .r1 2#9 := by decide
theorem test_decode_jsr : decode 0b0100100000000001#16 = .jsr 1#11 := by decide
theorem test_decode_jsrr : decode 0b0100000010000000#16 = .jsrr .r2 ∧ decode 0b0100011111111111#16 = .jsrr .r7 := by decide
theorem test_decode_andReg : decode 0b0101011001000010#16 = .andReg .r3 .r1 .r2 := by decide
theorem test_decode_andImm : decode 0b0101000000100000#16 = .andImm .r0 .r0 0#5 := by decide
theorem test_decode_ldr : decode 0b0110011010000000#16 = .ldr .r3 .r2 0#6 := by decide
theorem test_decode_str : decode 0b0111001110111111#16 = .str .r1 .r6 0x3F#6 := by decide
theorem test_decode_rti : decode 0b1000000000000000#16 = .rti ∧ decode 0b1000111111111111#16 = .rti := by decide
theorem test_decode_not : decode 0b1001011011111111#16 = .notReg .r3 .r3 ∧
    decode 0b1001001000000000#16 = .notReg .r1 .r0 := by decide
theorem test_decode_ldi : decode 0b1010000000000011#16 = .ldi .r0 3#9 := by decide
theorem test_decode_sti : decode 0b1011011000000010#16 = .sti .r3 2#9 := by decide
theorem test_decode_jmp : decode 0b1100000110000000#16 = .jmp .r6 ∧ decode 0b1100111111111111#16 = .jmp .r7 := by decide
theorem test_decode_res : decode 0b1101000000000000#16 = .res ∧ decode 0b1101000100100011#16 = .res := by decide
theorem test_decode_lea : decode 0b1110000000000010#16 = .lea .r0 2#9 := by decide
theorem test_decode_trapGetc : decode 0b1111000000100000#16 = .trapGetc := by decide
theorem test_decode_trapOut : decode 0b1111000000100001#16 = .trapOut ∧ decode 0b1111111100100001#16 = .trapOut := by decide
theorem test_decode_trapPuts : decode 0b1111000000100010#16 = .trapPuts := by decide
theorem test_decode_trapIn : decode 0b1111000000100011#16 = .trapIn := by decide
theorem test_decode_trapPutsp : decode 0b1111000000100100#16 = .trapPutsp := by decide
theorem test_decode_trapHalt : decode 0b1111000000100101#16 = .trapHalt ∧ decode 0b1111000100100101#16 = .trapHalt := by decide
theorem test_decode_trapUndefined : decode 0b1111000000000000#16 = .trapUndefined 0x00#8 ∧
    decode 0b1111000000011111#16 = .trapUndefined 0x1F#8 ∧ decode 0b1111000000100110#16 = .trapUndefined 0x26#8 ∧
    decode 0b1111000111111111#16 = .trapUndefined 0xFF#8 := by decide

/-- The canonical words of R84 are what the encoder writes. -/
theorem test_encode : encode (.notReg .r3 .r3) = 0x96FF#16 ∧ encode (.str .r1 .r6 0x3F#6) = 0x73BF#16 ∧
    encode (.br 0b001#3 0x1FD#9) = 0x03FD#16 ∧ encode (.jsr 0x400#11) = 0x4C00#16 ∧ encode .trapHalt = 0xF025#16 := by decide

/-! ### Primitives (tables 2.1 and 2.6) -/

theorem test_sext : sext 0x10#5 = 0xFFF0#16 ∧ sext 0x0F#5 = 0x000F#16 ∧ sext 0x20#6 = 0xFFE0#16 ∧
    sext 0x100#9 = 0xFF00#16 ∧ sext 0x0FF#9 = 0x00FF#16 ∧ sext 0x400#11 = 0xFC00#16 := by decide

theorem test_setCC : condOf 0x0000#16 = 0b010#16 ∧ condOf 0x7FFF#16 = 0b001#16 ∧ condOf 0x8000#16 = 0b100#16 := by decide

/-- K1: no key clears KBSR and leaves KBDR. -/
theorem test_kbsr_no_key :
    (match memRead 0xFE00#16 (start 0x3000 [(0xFE00, 0x8000), (0xFE02, 0x0055)] (regs4 0 0 0 0) []) with
      | .done w t => some (w, t.mem.read 0xFE00, t.mem.read 0xFE02)
      | .stopped _ => none) = some (0x0000#16, 0x0000#16, 0x0055#16) := by decide

/-- K6: a key is zero-extended into KBDR and consumed. -/
theorem test_kbsr_key :
    (match memRead 0xFE00#16 (start 0x3000 [] (regs4 0 0 0 0) [0xFF]) with
      | .done w t => some (w, t.mem.read 0xFE00, t.mem.read 0xFE02, t.inQ)
      | .stopped _ => none) = some (0x8000#16, 0x8000#16, 0x00FF#16, []) := by decide

/-- K13: a failing read raises IoFailure and leaves both words. -/
theorem test_kbsr_failure :
    (match memRead 0xFE00#16 { start 0x3000 [] (regs4 0 0 0 0) [0x41] with host := [⟨[], false⟩, ⟨[], true⟩] } with
      | .done _ _ => none
      | .stopped t => some (t.run, t.mem)) = some (.faulted .ioFailure, []) := by decide

/-- K8: stores to the device words are plain, and writing 0x0000 leaves no entry behind. -/
theorem test_memory_list : memWrite 0xFE02 0x5678 (memWrite 0xFE00 0x1234 (start 0x3000 [] (regs4 0 0 0 0) [0x41])) =
    { start 0x3000 [] (regs4 0 0 0 0) [0x41] with mem := [(0xFE00, 0x1234), (0xFE02, 0x5678)] } ∧
    Memory.write [(0xFE00, 0x1234), (0xFE02, 0x5678)] 0xFE00 0x0000 = [(0xFE02, 0x5678)] := by decide

/-! ### One step of each instruction (tables 2.2 to 2.5 and 2.7) -/

/-- O3. -/
theorem test_addReg_wraps :
    after (result .r0) (start 0x3000 [(0x3000, 0x1001)] (regs4 0xFFFF 1 0 0) []) = some (0x0000, 0b010, 0x3001) := by decide
/-- O4. -/
theorem test_addReg_signed_overflow :
    after (result .r0) (start 0x3000 [(0x3000, 0x1001)] (regs4 0x7FFF 1 0 0) []) = some (0x8000, 0b100, 0x3001) := by decide
/-- O1, the document's scenario 1. -/
theorem test_addImm_scenario_1 :
    after (result .r0) (start 0x3000 [(0x3000, 0x1021)] (regs4 0 0 0 0) []) = some (0x0001, 0b001, 0x3001) := by decide
/-- O7. -/
theorem test_addImm_smallest :
    after (result .r1) (start 0x3000 [(0x3000, 0x1270)] (regs4 0 0x0010 0 0) []) = some (0x0000, 0b010, 0x3001) := by decide
/-- O10. -/
theorem test_andReg :
    after (result .r3) (start 0x3000 [(0x3000, 0x5642)] (regs4 0 0xFF0F 0x0FF0 0) []) = some (0x0F00, 0b001, 0x3001) := by decide
/-- O12. -/
theorem test_andImm_identity :
    after (result .r1) (start 0x3000 [(0x3000, 0x527F)] (regs4 0 0x8001 0 0) []) = some (0x8001, 0b100, 0x3001) := by decide
/-- O13. -/
theorem test_andImm_mask :
    after (result .r1) (start 0x3000 [(0x3000, 0x5270)] (regs4 0 0x12FF 0 0) []) = some (0x12F0, 0b001, 0x3001) := by decide
/-- O15. -/
theorem test_not :
    after (result .r3) (start 0x3000 [(0x3000, 0x96FF)] (regs4 0 0 0 5) []) = some (0xFFFA, 0b100, 0x3001) := by decide
/-- M3: the PC wraps and then the address is 0x0000. -/
theorem test_ld_wraps : after (result .r0) (start 0xFFFF [(0xFFFF, 0x2000), (0x0000, 0x00AA)] (regs4 0 0 0 0) []) =
    some (0x00AA, 0b001, 0x0000) := by decide
/-- M4: a data read of KBSR with a key pending. -/
theorem test_ld_kbsr :
    after (fun t => (result .r0 t, t.mem.read 0xFE02, t.inQ)) (start 0xFDFF [(0xFDFF, 0x2000)] (regs4 0 0 0 0) [0x41]) =
      some ((0x8000, 0b100, 0xFE00), 0x0041, []) := by decide
/-- M6. -/
theorem test_ldi : after (result .r0)
    (start 0x3000 [(0x3000, 0xA003), (0x3004, 0x4000), (0x4000, 0xFFFF)] (regs4 0 0 0 0) []) =
      some (0xFFFF, 0b100, 0x3001) := by decide
/-- M8: a KBDR read consumes nothing. -/
theorem test_ldi_kbdr : after (fun t => (result .r0 t, t.inQ))
    (start 0x3000 [(0x3000, 0xA003), (0x3004, 0xFE02), (0xFE02, 0x0041)] (regs4 0 0 0 0) [0x42]) =
      some ((0x0041, 0b001, 0x3001), [0x42]) := by decide
/-- M10: the address wraps below 0 and DR is BaseR. -/
theorem test_ldr_wraps : after (result .r0) (start 0x3000 [(0x3000, 0x603F), (0xFFFF, 0x8001)] (regs4 0 0 0 0) []) =
    some (0x8001, 0b100, 0x3001) := by decide
/-- M11. -/
theorem test_ldr_largest : after (result .r1)
    (start 0x3000 [(0x3000, 0x625F), (0x401F, 0x0007)] (regs4 0 0x4000 0 0) []) = some (0x0007, 0b001, 0x3001) := by decide
/-- M15. -/
theorem test_lea_neg : after (result .r0) (start 0x7FFF [(0x7FFF, 0xE000)] (regs4 0 0 0 0) []) =
    some (0x8000, 0b100, 0x8000) := by decide
/-- M16: LEA of KBSR polls nothing. -/
theorem test_lea_no_poll : after (fun t => (t.reg .r0, t.mem.read 0xFE00, t.inQ))
    (start 0xFDFF [(0xFDFF, 0xE000)] (regs4 0 0 0 0) [0x41]) = some (0xFE00, 0x0000, [0x41]) := by decide
/-- M18: a store over its own word. -/
theorem test_st_self : after (fun t => (t.mem, t.cond, t.pc)) (start 0x3000 [(0x3000, 0x31FF)] (regs4 0x1234 0 0 0) []) =
    some ([(0x3000, 0x1234)], 0b010, 0x3001) := by decide
/-- M19: a store to KBSR is plain. -/
theorem test_st_kbsr : after (fun t => (t.mem.read 0xFE00, t.mem.read 0xFE02, t.inQ))
    (start 0xFDFF [(0xFDFF, 0x3000)] (regs4 0x1234 0 0 0) [0x41]) = some (0x1234, 0x0000, [0x41]) := by decide
/-- M20. -/
theorem test_sti : after (fun t => (t.mem.read 0x4000, t.mem.read 0x3007, t.pc))
    (start 0x3004 [(0x3004, 0xB602), (0x3007, 0x4000)] (regs4 0 0 0 0xFFFB) []) = some (0xFFFB, 0x4000, 0x3005) := by decide
/-- M22: SR is BaseR. -/
theorem test_str : after (fun t => (t.mem.read 0x5000, t.reg .r2)) (start 0x3000 [(0x3000, 0x7480)] (regs4 0 0 0x5000 0) []) =
    some (0x5000, 0x5000) := by decide
/-- B2: not taken; B4: taken, and both the PC and the sum wrap. -/
theorem test_br : after State.pc (start 0x3005 [(0x3005, 0x03FD)] (regs4 0 0 0 0) []) = some 0x3006 ∧
    after State.pc (start 0xFFFF [(0xFFFF, 0x0EFF)] (regs4 0 0 0 0) []) = some 0x00FF := by decide
/-- The row BRnz of the branch table: taken on NEG, where an equals-1 test would not branch. -/
theorem test_br_non_zero_test :
    after State.pc { start 0x3000 [(0x3000, 0x0C05)] (regs4 0 0 0 0) [] with cond := 0b100 } = some 0x3006 := by decide
/-- J3. -/
theorem test_jmp : after State.pc (start 0x3000 [(0x3000, 0xCFFF)] ⟨0, 0, 0, 0, 0, 0, 0, 0x1234⟩ []) = some 0x1234 := by decide
/-- L4. -/
theorem test_jsr_wraps : after (fun t => (t.reg .r7, t.pc)) (start 0xFFF0 [(0xFFF0, 0x4BFF)] (regs4 0 0 0 0) []) =
    some (0xFFF1, 0x03F0) := by decide
/-- L5. -/
theorem test_jsrr : after (fun t => (t.reg .r7, t.pc)) (start 0x3000 [(0x3000, 0x4080)] (regs4 0 0 0x5000 0) []) =
    some (0x3001, 0x5000) := by decide
/-- L6: R7 is written before it is read. -/
theorem test_jsrr_r7 : after (fun t => (t.reg .r7, t.pc))
    (start 0x3000 [(0x3000, 0x41C0)] ⟨0, 0, 0, 0, 0, 0, 0, 0x5000⟩ []) = some (0x3001, 0x3001) := by decide
/-- T3: zero-extended, never NEG. -/
theorem test_getc : after (fun t => (result .r0 t, t.reg .r7, t.inQ, t.out))
    (start 0x3000 [(0x3000, 0xF020)] (regs4 0xABCD 0 0 0) [0xFF]) = some ((0x00FF, 0b001, 0x3001), 0x3001, [], []) := by decide
/-- T4: the hold, lifted by the next byte, also where the host's script has a failure (R212). -/
theorem test_getc_holds :
    after (fun t => (t.reg .r0, t.reg .r7, t.routine,
        after (result .r0) { t.hostAppend [0x00] with host := [⟨[], true⟩] },
        after State.run { t with host := [⟨[], true⟩] }))
      (start 0x3000 [(0x3000, 0xF020)] (regs4 0xABCD 0 0 0) []) =
    some (0xABCD, 0x3001, some .getc, some (0x0000, 0b010, 0x3001), some .running) := rfl
/-- T6. -/
theorem test_out : after (fun t => (t.out, t.reg .r0, t.reg .r7)) (start 0x3000 [(0x3000, 0xF021)] (regs4 0x1241 0 0 0) []) =
    some ([0x41], 0x1241, 0x3001) := by decide
/-- T13: a string across KBSR with a key pending. -/
theorem test_puts_kbsr : after (fun t => (t.out, t.mem.read 0xFE00, t.inQ))
    (start 0x3000 [(0x3000, 0xF022), (0xFDFF, 0x0041), (0xFE01, 0x0044)] (regs4 0xFDFF 0 0 0) [0x31]) =
      some ([0x41, 0x00, 0x44, 0x31], 0x8000, []) := by decide
/-- T14: the second write fails. -/
theorem test_puts_failure : after (fun t => (t.out, t.run, t.reg .r7))
    { start 0x3000 [(0x3000, 0xF022), (0x3006, 0x0048), (0x3007, 0x0069)] (regs4 0x3006 0 0 0) [] with
      host := [⟨[], false⟩, ⟨[], true⟩] } = some ([0x48], .faulted .ioFailure, 0x3001) := by decide
/-- T15. -/
theorem test_in : after (fun t => (t.out, result .r0 t, t.inQ)) (start 0x3000 [(0x3000, 0xF023)] (regs4 0 0 0 0) [0x7A]) =
    some (Config.inPrompt ++ [0x7A], (0x007A, 0b001, 0x3001), []) := rfl
/-- T16: the prompt is out before the wait. -/
theorem test_in_holds : after (fun t => (t.out, t.routine)) (start 0x3000 [(0x3000, 0xF023)] (regs4 0 0 0 0) []) =
    some (Config.inPrompt, some .inn) := rfl
/-- T17. -/
theorem test_putsp : after (fun t => (t.out, t.reg .r0))
    (start 0x3000 [(0x3000, 0xF024), (0x4000, 0x6548), (0x4001, 0x006C)] (regs4 0x4000 0 0 0) []) =
      some ([0x48, 0x65, 0x6C], 0x4000) := by decide
/-- T19. -/
theorem test_putsp_zero_low_byte : after State.out
    (start 0x3000 [(0x3000, 0xF024), (0x4000, 0x4100)] (regs4 0x4000 0 0 0) []) = some [0x00, 0x41] := by decide
/-- T20, the document's scenario 2; then Y6. -/
theorem test_halt : after (fun t => (t.out, t.run, t.reg .r7, t.pc)) (start 0x3000 [(0x3000, 0xF025)] (regs4 1 2 3 4) []) =
    some (Config.haltMarker, .halted, 0x3001, 0x3001) := rfl
theorem test_halted_has_no_step : after State.run { State.reset with run := .halted } = none := by decide
/-- T23. -/
theorem test_trap_undefined : after (fun t => (t.reg .r7, t.pc, t.run))
    (start 0x3000 [(0x3000, 0xF000)] ⟨0, 0, 0, 0, 0, 0, 0, 0x5000⟩ []) =
      some (0x3001, 0x3001, .faulted .malformedInstruction) := by decide
/-- T25, the document's scenario 4. -/
theorem test_rti : after (fun t => (t.reg .r7, t.pc, t.run)) (start 0x3000 [(0x3000, 0x8000)] ⟨0, 0, 0, 0, 0, 0, 0, 0x5000⟩ []) =
    some (0x5000, 0x3001, .faulted .unimplementedOpcode) := by decide
/-- T27. -/
theorem test_res : after (fun t => (t.reg .r7, t.pc, t.run)) (start 0x3000 [(0x3000, 0xD123)] (regs4 0 0 0 0) []) =
    some (0x0000, 0x3001, .faulted .unimplementedOpcode) := by decide
/-- Y1 and Y2. -/
theorem test_step_zero_word : step State.reset = .next { State.reset with pc := 0x3001 } ∧
    after State.pc (start 0xFFFF [] (regs4 0 0 0 0) []) = some 0x0000 := ⟨rfl, by decide⟩
/-- Y3: the HALT stored at KBSR is never fetched. -/
theorem test_fetch_kbsr_no_key : after (fun t => (t.mem, t.pc, t.run)) (start 0xFE00 [(0xFE00, 0xF025)] (regs4 0 0 0 0) []) =
    some ([], 0xFE01, .running) := by decide
/-- Y4: a key makes it an RTI. -/
theorem test_fetch_kbsr_key : after (fun t => (t.mem, t.pc, t.run)) (start 0xFE00 [] (regs4 0 0 0 0) [0x20]) =
    some ([(0xFE00, 0x8000), (0xFE02, 0x0020)], 0xFE01, .faulted .unimplementedOpcode) := by decide
/-- The host's two questions on one word: the row's instruction, and its run as the first one after reset. -/
theorem test_host_word : decodeTableWord 16 0x1021 = some (.addImm .r0 .r0 1#5) ∧
    after (result .r0) (State.reset.withFetchWord 16 0x1021) = some (0x0001, 0b001, 0x3001) := by decide

/-! ### Witnesses: states and operands that meet the hypotheses of each statement -/

/-- No key, and no key arrives at the poll. -/
def noKey : State := State.reset
/-- A key is pending. -/
def oneKey : State := State.boot [] [0x41] []
/-- A key arrives just at the poll, and another at the read. -/
def arrivingKey : State := State.boot [] [] [⟨[0x41], false⟩, ⟨[0x42], false⟩]
/-- A key is pending and the read of it fails. -/
def failingKey : State := State.boot [] [0x41] [⟨[], false⟩, ⟨[], true⟩]
/-- The first Terminal operation fails. -/
def failsAtOnce : State := State.boot [] [0x41] [⟨[], true⟩]
/-- The second Terminal operation fails. -/
def failsSecond : State := State.boot [] [0x41] [⟨[], false⟩, ⟨[], true⟩]

theorem witness_RegisterReadReturnsTheLastWrite : Reg.r0 ≠ Reg.r7 := by decide

theorem witness_WriteStoresOneWordAndNothingElse : (0xFFFF#16 : Word) ≠ 0x0000#16 := by decide

theorem witness_OnlyKbsrReadsHaveASideEffect : (0xFDFF#16 : Word) ≠ 0xFE00#16 ∧ (0xFE01#16 : Word) ≠ 0xFE00#16 ∧
    (0xFE02#16 : Word) ≠ 0xFE00#16 := by decide

theorem witness_KbsrReadPollsTheTerminal :
    (afterMoves 1 noKey).inQ = [] ∧
    ((afterMoves 1 oneKey).inQ = [0x41#8] ∧ (moveAt oneKey 1).fails = false) ∧
    ((afterMoves 1 arrivingKey).inQ = [0x41#8] ∧ (moveAt arrivingKey 1).fails = false) ∧
    ((afterMoves 1 failingKey).inQ ≠ [] ∧ (moveAt failingKey 1).fails = true) := by decide

theorem witness_StoredKbsrValueIsNeverReadBack :
    (∃ w t, memRead 0xFE00#16 (memWrite 0xFE00#16 0x1234#16 oneKey) = .done w t) ∧
    (∃ w t, (afterMoves 1 noKey).inQ = [] ∧ memRead 0xFE00#16 (memWrite 0xFE02#16 0x5678#16 noKey) = .done w t) :=
  ⟨⟨_, _, rfl⟩, ⟨_, _, rfl, rfl⟩⟩

theorem witness_KbsrReadConsumesTheKey :
    (State.boot [] [0x41, 0x42] []).host = [] ∧ (State.boot [] [0x41, 0x42] []).inQ = 0x41#8 :: 0x42#8 :: [] := by decide

theorem witness_CanonicalMemoriesThatReadAlikeAreEqual :
    ∃ m n : Memory, m ≠ [] ∧ m.wf ∧ n.wf ∧ ∀ a, m.read a = n.read a :=
  ⟨Memory.load [(0xFFFF, 1), (0x0000, 2)], Memory.load [(0x0000, 3), (0x0000, 2), (0xFFFF, 1)], by decide,
    Memory.wf_load _, Memory.wf_load _, fun _ => rfl⟩

theorem witness_DecodingAnEncodedInstructionGivesItBack :
    WellFormed (.jsr 0x7FF#11) = true ∧ WellFormed (.trapUndefined 0x1F#8) = true ∧
    WellFormed (.trapUndefined 0x26#8) = true := by decide

/-- O2's word and O9's: they agree on the used bits and differ in bits 4:3. -/
theorem witness_IgnoredBitsDoNotChangeTheInstruction :
    (∀ i, (usedBits 0x1001#16).getLsbD i = true → (0x1019#16 : Word).getLsbD i = (0x1001#16 : Word).getLsbD i) ∧
    (0x1019#16 : Word) ≠ 0x1001#16 := by
  refine ⟨fun i h => ?_, by decide⟩
  have hi : i < 16 := by
    by_contra hn
    rw [BitVec.getLsbD_of_ge _ _ (by omega)] at h
    cases h
  revert h
  have : ∀ j : Fin 16, (usedBits 0x1001#16).getLsbD j = true →
      (0x1019#16 : Word).getLsbD j = (0x1001#16 : Word).getLsbD j := by decide
  exact this ⟨i, hi⟩

theorem witness_StepRunsTheDecodedInstruction :
    (State.reset.run = .running ∧ State.reset.routine = none ∧ State.reset.pc ≠ 0xFE00#16) ∧
    (∃ w t, memRead (0xFE00#16) { oneKey with pc := 0xFE00#16 } = .done w t) :=
  ⟨by decide, _, _, rfl⟩

theorem witness_FetchAtKbsrPollsTheKeyboard :
    let at_kbsr (s : State) : Prop := s.run = .running ∧ s.routine = none ∧ s.pc = 0xFE00#16
    at_kbsr { noKey with pc := 0xFE00#16 } ∧ at_kbsr { oneKey with pc := 0xFE00#16 } ∧
    at_kbsr { failingKey with pc := 0xFE00#16 } ∧ (afterMoves 1 noKey).inQ = [] ∧
    ((afterMoves 1 oneKey).inQ = [0x41#8] ∧ (moveAt oneKey 1).fails = false) ∧
    ((afterMoves 1 failingKey).inQ ≠ [] ∧ (moveAt failingKey 1).fails = true) := by
  refine ⟨?_, ?_, ?_, ?_⟩ <;> decide

theorem witness_StoppedEngineHasNoStep :
    ({ State.reset with run := .halted } : State).run = .halted ∧
    ({ State.reset with run := .faulted .ioFailure } : State).run = .faulted .ioFailure := by decide

/-- A held GETC and a held IN with nothing pending and a quiet host; with a byte, IN's echo succeeding or failing; and a
held GETC with nothing pending while the host has a failure in its script. -/
theorem witness_HeldReadGoesOnWhenAByteIsThere :
    let getc (s : State) : State := { s with routine := some .getc };
    let inn (s : State) : State := { s with routine := some .inn };
    ((getc noKey).run = .running ∧ (getc noKey).routine = some .getc ∧ (getc noKey).inQ = [] ∧ (getc noKey).host = []) ∧
    ((inn noKey).run = .running ∧ (inn noKey).routine = some .inn ∧ (inn noKey).inQ = [] ∧ (inn noKey).host = []) ∧
    (afterMoves 1 (getc oneKey)).inQ = [0x41#8] ∧
    ((afterMoves 1 (inn oneKey)).inQ = [0x41#8] ∧ (moveAt (afterMoves 1 (inn oneKey)) 0).fails = false) ∧
    ((afterMoves 1 (inn failsSecond)).inQ = [0x41#8] ∧ (moveAt (afterMoves 1 (inn failsSecond)) 0).fails = true) ∧
    ((afterMoves 1 { getc failsAtOnce with inQ := [] }).inQ = [] ∧ (getc failsAtOnce).host ≠ []) := by decide

theorem witness_ZeroWordOnlyAdvancesThePc :
    (let s := start 0xFFFF [(0xFFFF, 0x01FF)] (regs4 0 0 0 0) [];
      s.run = .running ∧ s.routine = none ∧ s.pc ≠ 0xFE00#16 ∧ (s.mem.read s.pc).toNat < 0x200) ∧
    State.reset.cond = 2#16 ∧ ({ State.reset with cond := 4#16 } : State).cond = 4#16 := by decide

/-- ST, STR and STI at the PC. -/
theorem witness_StoreIsSeenByTheVeryNextFetch :
    (State.reset.run = .running ∧ State.reset.routine = none ∧ State.reset.pc ≠ 0xFE00#16) ∧
    StoresAt (.st .r1 0#9) .r1 State.reset State.reset.pc ∧
    (let s := start 0x3000 [] (regs4 0x3001 0 0 0) [];
      StoresAt (.str .r1 .r0 0x3F#6) .r1 s s.pc) ∧
    (let s := start 0x3000 [(0x3002, 0x3000)] (regs4 0 0 0 0) [];
      StoresAt (.sti .r1 2#9) .r1 s s.pc) :=
  ⟨by decide, .inl ⟨_, rfl, by decide⟩, .inr (.inl ⟨_, _, rfl, by decide⟩), .inr (.inr ⟨_, _, rfl, rfl⟩)⟩

/-! Words that meet the encoding hypotheses of each form, with the ignored bits set. -/

theorem witness_AddRegisterForm : (0x1019#16 : Word).extractLsb' 12 4 = 1#4 ∧ (0x1019#16 : Word).getLsbD 5 = false ∧
    Names 0x1019#16 9 .r0 ∧ Names 0x1019#16 6 .r0 ∧ Names 0x1019#16 0 .r1 := by unfold Names; decide
theorem witness_AddImmediateForm : (0x1270#16 : Word).extractLsb' 12 4 = 1#4 ∧ (0x1270#16 : Word).getLsbD 5 = true ∧
    Names 0x1270#16 9 .r1 ∧ Names 0x1270#16 6 .r1 ∧ (0x1270#16 : Word).extractLsb' 0 5 = 0x10#5 := by unfold Names; decide
theorem witness_AndRegisterForm : (0x5642#16 : Word).extractLsb' 12 4 = 5#4 ∧ (0x5642#16 : Word).getLsbD 5 = false ∧
    Names 0x5642#16 9 .r3 ∧ Names 0x5642#16 6 .r1 ∧ Names 0x5642#16 0 .r2 := by unfold Names; decide
theorem witness_AndImmediateForm : (0x5270#16 : Word).extractLsb' 12 4 = 5#4 ∧ (0x5270#16 : Word).getLsbD 5 = true ∧
    Names 0x5270#16 9 .r1 ∧ Names 0x5270#16 6 .r1 ∧ (0x5270#16 : Word).extractLsb' 0 5 = 0x10#5 := by unfold Names; decide
theorem witness_NotForm : (0x9200#16 : Word).extractLsb' 12 4 = 9#4 ∧ Names 0x9200#16 9 .r1 ∧ Names 0x9200#16 6 .r0 := by
  unfold Names; decide

/-- A load of an address that is not KBSR, of KBSR with a key, and of KBSR with a failing Terminal: the three clauses of
`Loads`. -/
theorem witness_Loads : (0x3003#16 : Word) ≠ 0xFE00#16 ∧ (∃ w t, memRead 0xFE00#16 oneKey = .done w t) ∧
    (∃ t, memRead 0xFE00#16 failingKey = .stopped t) ∧ KbsrReadFails failingKey :=
  ⟨by decide, ⟨_, _, rfl⟩, ⟨_, rfl⟩, by unfold KbsrReadFails; decide⟩

theorem witness_LdForm : (0x21FF#16 : Word).extractLsb' 12 4 = 2#4 ∧ Names 0x21FF#16 9 .r0 ∧
    (0x21FF#16 : Word).extractLsb' 0 9 = 0x1FF#9 := by unfold Names; decide

/-- The pointer at a plain address; the pointer at KBSR, read and failing. -/
theorem witness_LdiForm : ((0xA003#16 : Word).extractLsb' 12 4 = 10#4 ∧ Names 0xA003#16 9 .r0 ∧
      (0xA003#16 : Word).extractLsb' 0 9 = 3#9) ∧
    State.reset.pc + signExtend 3#9 ≠ 0xFE00#16 ∧
    (∃ ea t, memRead (0xFDFD#16 + signExtend 3#9) { oneKey with pc := 0xFDFD#16 } = .done ea t) ∧
    (∃ t, memRead (0xFDFD#16 + signExtend 3#9) { failingKey with pc := 0xFDFD#16 } = .stopped t) :=
  ⟨by unfold Names; decide, by decide, ⟨_, _, rfl⟩, ⟨_, rfl⟩⟩

theorem witness_LdrForm : (0x603F#16 : Word).extractLsb' 12 4 = 6#4 ∧ Names 0x603F#16 9 .r0 ∧ Names 0x603F#16 6 .r0 ∧
    (0x603F#16 : Word).extractLsb' 0 6 = 0x3F#6 := by unfold Names; decide
theorem witness_LeaForm : (0xE100#16 : Word).extractLsb' 12 4 = 14#4 ∧ Names 0xE100#16 9 .r0 ∧
    (0xE100#16 : Word).extractLsb' 0 9 = 0x100#9 := by unfold Names; decide
theorem witness_StForm : (0x31FF#16 : Word).extractLsb' 12 4 = 3#4 ∧ Names 0x31FF#16 9 .r0 ∧
    (0x31FF#16 : Word).extractLsb' 0 9 = 0x1FF#9 := by unfold Names; decide
theorem witness_StiForm : ((0xB602#16 : Word).extractLsb' 12 4 = 11#4 ∧ Names 0xB602#16 9 .r3 ∧
      (0xB602#16 : Word).extractLsb' 0 9 = 2#9) ∧
    State.reset.pc + signExtend 2#9 ≠ 0xFE00#16 ∧
    (∃ ea t, memRead (0xFDFE#16 + signExtend 2#9) { oneKey with pc := 0xFDFE#16 } = .done ea t) ∧
    (∃ t, memRead (0xFDFE#16 + signExtend 2#9) { failingKey with pc := 0xFDFE#16 } = .stopped t) :=
  ⟨by unfold Names; decide, by decide, ⟨_, _, rfl⟩, ⟨_, rfl⟩⟩
theorem witness_StrForm : (0x73BF#16 : Word).extractLsb' 12 4 = 7#4 ∧ Names 0x73BF#16 9 .r1 ∧ Names 0x73BF#16 6 .r6 ∧
    (0x73BF#16 : Word).extractLsb' 0 6 = 0x3F#6 := by unfold Names; decide
theorem witness_BrForm : (0x03FD#16 : Word).extractLsb' 12 4 = 0#4 ∧ (0x03FD#16 : Word).extractLsb' 9 3 = 1#3 ∧
    (0x03FD#16 : Word).extractLsb' 0 9 = 0x1FD#9 := by decide
theorem witness_JmpForm : (0xCFFF#16 : Word).extractLsb' 12 4 = 12#4 ∧ Names 0xCFFF#16 6 .r7 := by unfold Names; decide
theorem witness_JsrForm : (0x4C00#16 : Word).extractLsb' 12 4 = 4#4 ∧ (0x4C00#16 : Word).getLsbD 11 = true ∧
    (0x4C00#16 : Word).extractLsb' 0 11 = 0x400#11 := by decide
theorem witness_JsrrForm : (0x47FF#16 : Word).extractLsb' 12 4 = 4#4 ∧ (0x47FF#16 : Word).getLsbD 11 = false ∧
    Names 0x47FF#16 6 .r7 := by unfold Names; decide

theorem witness_GetcForm : ((0xFF20#16 : Word).extractLsb' 12 4 = 15#4 ∧ (0xFF20#16 : Word).extractLsb' 0 8 = 0x20#8) ∧
    (moveAt (linked failsAtOnce) 0).fails = true ∧
    ((moveAt (linked oneKey) 0).fails = false ∧ (afterMoves 1 (linked oneKey)).inQ = [0x41#8]) ∧
    ((moveAt (linked noKey) 0).fails = false ∧ (afterMoves 1 (linked noKey)).inQ = []) := by decide

/-- Two writes that succeed, and two of which the second fails: the clauses of `WritesThen`. -/
theorem witness_WritesThen : NoFailure 2 noKey ∧ NoFailure 1 failsSecond ∧ (moveAt failsSecond 1).fails = true := by
  unfold NoFailure
  refine ⟨fun k _ => rfl, fun k hk => ?_, rfl⟩
  obtain rfl : k = 0 := by omega
  rfl

theorem witness_OutForm : ((0xFF21#16 : Word).extractLsb' 12 4 = 15#4 ∧ (0xFF21#16 : Word).extractLsb' 0 8 = 0x21#8) ∧
    NoFailure 1 (linked noKey) ∧ NoFailure 0 (linked failsAtOnce) ∧ (moveAt (linked failsAtOnce) 0).fails = true :=
  ⟨by decide, fun _ _ => rfl, fun _ h => absurd h (by omega), rfl⟩

/-- After the prompt, whatever its length: the read fails, takes a byte, holds. The prompt is open (log 8), so that a
write of it fails is shown for a prompt of one byte or more. -/
theorem witness_InForm : ((0xF023#16 : Word).extractLsb' 12 4 = 15#4 ∧ (0xF023#16 : Word).extractLsb' 0 8 = 0x23#8) ∧
    NoFailure Config.inPrompt.length oneKey ∧ NoFailure Config.inPrompt.length noKey ∧
    (0 < Config.inPrompt.length → NoFailure 0 failsAtOnce ∧ (moveAt failsAtOnce 0).fails = true) :=
  ⟨by decide, fun _ _ => rfl, fun _ _ => rfl, fun _ => ⟨fun _ h => absurd h (by omega), rfl⟩⟩

/-- The marker is open too (log 8). -/
theorem witness_HaltForm : ((0xF125#16 : Word).extractLsb' 12 4 = 15#4 ∧ (0xF125#16 : Word).extractLsb' 0 8 = 0x25#8) ∧
    NoFailure Config.haltMarker.length (linked noKey) ∧
    (0 < Config.haltMarker.length → NoFailure 0 (linked failsAtOnce) ∧ (moveAt (linked failsAtOnce) 0).fails = true) :=
  ⟨by decide, fun _ _ => rfl, fun _ => ⟨fun _ h => absurd h (by omega), rfl⟩⟩

/-- T11's memory: a string that goes on from 0xFFFF at 0x0000. -/
def wrapping : State := start 0x3000 [(0xFFFF, 0x0041), (0x0000, 0x0042)] (regs4 0xFFFF 0 0 0) []

/-- T8's empty string and T11's, for PUTS and for PUTSP. -/
theorem witness_PutsWritesTheString :
    StringAt wrapping (wrapping.reg .r0) [0x0041#16, 0x0042#16] ∧ StringAt State.reset (State.reset.reg .r0) [] := by
  refine ⟨⟨by decide, fun i w h => ?_, by decide, by decide⟩, ⟨by decide, fun i w h => by simp at h, by decide, by decide⟩⟩
  match i, h with
  | 0, h => obtain rfl : 0x0041#16 = w := by simpa using h
            decide
  | 1, h => obtain rfl : 0x0042#16 = w := by simpa using h
            decide
  | n + 2, h => simp at h

theorem witness_PutspWritesThePackedString : ∃ s ws, ws ≠ [] ∧ StringAt s (s.reg .r0) ws :=
  ⟨wrapping, _, by simp, witness_PutsWritesTheString.1⟩

/-! A loop that passes a whole lap of 65,536 words: every word is 0x0041, and a key is pending when the walk comes to
KBSR, its last word. -/

/-- Every word 0x0041. -/
@[irreducible] def fullMemory : Memory := (List.range 65536).map fun k => (k, 0x0041#16)

/-- A running machine with that memory and a key pending. -/
def fullState : State := { oneKey with mem := fullMemory }

theorem readAt_map (v : Word) (l : List Nat) (k : Nat) (h : k ∈ l) : Memory.readAt (l.map fun k => (k, v)) k = v := by
  induction l with
  | nil => cases h
  | cons c rest ih =>
    by_cases hc : c = k
    · simp [Memory.readAt, hc]
    · have := ih ((List.mem_cons.1 h).resolve_left fun e => hc e.symm)
      simpa [Memory.readAt, hc] using this

theorem fullMemory_read (a : Word) : fullMemory.read a = 0x0041#16 := by
  unfold fullMemory
  exact readAt_map _ _ _ (List.mem_range.2 a.isLt)

/-- The state after `n` bytes were written. -/
def written (n : Nat) : State := { fullState with out := List.replicate n 0x41#8 }

/-- The words before KBSR, from `k` words before it, for a routine that writes one byte for 0x0041. -/
theorem passes_before_kbsr {bytes : Word → List Byte} (hb : bytes 0x0041#16 = [0x41#8]) (k n : Nat) (hk : k < 65536)
    {v : State} {b : Word} (h : Passes bytes 1 0xFE00#16 (written (n + k)) b v) :
    Passes bytes (k + 1) (0xFE00#16 - BitVec.ofNat 16 k) (written n) b v := by
  induction k generalizing n with
  | zero => simpa using h
  | succ k ih =>
    have hne : 0xFE00#16 - BitVec.ofNat 16 (k + 1) ≠ 0xFE00#16 := by
      intro e
      have := congrArg BitVec.toNat e
      simp [BitVec.toNat_sub] at this
      omega
    refine .word (t := written n) (w := 0x0041#16) (u := written (n + 1)) ?_ (by decide) ?_ ?_
    · rw [memRead_of_ne hne]
      show Result.done (fullMemory.read _) _ = _
      rw [fullMemory_read]
    · have : (written n).host = [] := rfl
      rw [hb, termWriteEach_quiet _ this]
      simp [written, List.replicate_succ']
    · have e : 0xFE00#16 - BitVec.ofNat 16 (k + 1) + 1#16 = 0xFE00#16 - BitVec.ofNat 16 k := by
        apply BitVec.eq_of_toNat_eq
        simp [BitVec.toNat_sub, BitVec.toNat_add]
        omega
      rw [e]
      refine ih (n + 1) (by omega) ?_
      rwa [show n + 1 + k = n + (k + 1) by omega]

/-- KBSR itself, with the key pending. -/
theorem passes_kbsr (bytes : Word → List Byte) (n : Nat) : ∃ v, Passes bytes 1 0xFE00#16 (written n) 0xFE01#16 v := by
  have hq : (written n).takeMove.inQ ≠ [] := by
    show (([0x41#8] : List Byte) ++ []) ≠ []
    decide
  rcases memRead_kbsr_cases (written n) with ⟨h, -⟩ | ⟨-, hf, -⟩ | ⟨b, q, -, -, -, h⟩
  · exact absurd h hq
  · exact absurd hf Bool.false_ne_true
  · exact ⟨_, .word h (by decide) (termWriteEach_quiet _ rfl) (.here _ _)⟩

theorem passes_a_lap {bytes : Word → List Byte} (hb : bytes 0x0041#16 = [0x41#8]) :
    ∃ v, Passes bytes 65536 0xFE01#16 (written 0) 0xFE01#16 v := by
  obtain ⟨v, h⟩ := passes_kbsr bytes (0 + 65535)
  exact ⟨v, passes_before_kbsr hb 65535 0 (by decide) h⟩

theorem witness_PutsFollowsItsLoop :
    ((0xF022#16 : Word).extractLsb' 12 4 = 15#4 ∧ (0xF022#16 : Word).extractLsb' 0 8 = 0x22#8) ∧
    (∃ t, EndsAt putsBytes 0x0000#16 State.reset t) ∧ (∃ t, EndsAt putsBytes 0xFE00#16 failingKey t) ∧
    (∃ t, EndsAt putsBytes 0x3000#16 { failsAtOnce with mem := [(0x3000, 0x0041)] } t) ∧
    (∃ v, Passes putsBytes 65536 0xFE01#16 (written 0) 0xFE01#16 v) := by
  exact ⟨by decide, ⟨_, .zeroWord rfl⟩, ⟨_, .readRaises rfl⟩, ⟨_, .writeRaises rfl (by decide) rfl⟩,
    passes_a_lap (by decide)⟩

theorem witness_PutspFollowsItsLoop :
    ((0xF024#16 : Word).extractLsb' 12 4 = 15#4 ∧ (0xF024#16 : Word).extractLsb' 0 8 = 0x24#8) ∧
    (∃ t, EndsAt putspBytes 0x0000#16 State.reset t) ∧ (∃ t, EndsAt putspBytes 0xFE00#16 failingKey t) ∧
    (∃ t, EndsAt putspBytes 0x3000#16 { failsSecond with mem := [(0x3000, 0x6548)] } t) ∧
    (∃ v, Passes putspBytes 65536 0xFE01#16 (written 0) 0xFE01#16 v) :=
  ⟨by decide, ⟨_, .zeroWord rfl⟩, ⟨_, .readRaises rfl⟩, ⟨_, .writeRaises rfl (by decide) rfl⟩, passes_a_lap (by decide)⟩

/-- A held walk that ends in the next step, and one that goes another lap. -/
theorem witness_HeldWalkGoesOnWithItsLoop :
    (let s : State := { written 0 with routine := some (.puts 0xFE01#16) };
      s.run = .running ∧ s.routine = some (.puts 0xFE01#16) ∧ ({ s with routine := none } : State) = written 0) ∧
    ({ State.reset with routine := some (.putsp 0x0000#16) } : State).run = .running := ⟨⟨rfl, rfl, rfl⟩, rfl⟩

theorem witness_UndefinedVectorForm : (0xF01F#16 : Word).extractLsb' 12 4 = 15#4 ∧
    (0xF01F#16 : Word).extractLsb' 0 8 = 0x1F#8 ∧ ((0x1F#8).toNat < 0x20) ∧
    (0xF126#16 : Word).extractLsb' 12 4 = 15#4 ∧ (0xF126#16 : Word).extractLsb' 0 8 = 0x26#8 ∧ 0x25 < (0x26#8).toNat := by
  decide

theorem witness_RtiAndResForms : (0x8FFF#16 : Word).extractLsb' 12 4 = 8#4 ∧ (0xD123#16 : Word).extractLsb' 12 4 = 13#4 := by
  decide

theorem reset_invariant : StateInvariant State.reset := ⟨Memory.wf_nil, .inr (.inl rfl), fun h => absurd rfl h⟩

theorem witness_EveryStepKeepsTheInvariant : ∃ s t, StateInvariant s ∧ step s = .next t := ⟨_, _, reset_invariant, rfl⟩

/-- A run that steps, takes input and is still Running; and the states a run reaches that are Halted. -/
theorem witness_EveryReachedStateHasOneFlagAndGoesOn :
    (∃ t, Reaches (State.boot [] [] []) t ∧ t.run = .running ∧ t.inQ = [0x41#8]) ∧
    (∃ t, Reaches (State.boot [(0x3000, 0xF025)] [] []) t ∧ t.run = .halted) :=
  ⟨⟨_, .input [0x41#8] (.step .refl rfl), rfl, rfl⟩, ⟨_, .step .refl rfl, rfl⟩⟩

theorem witness_EveryInstructionAnswersANextState : State.reset.run = .running ∧ ∃ t, step State.reset = .next t := ⟨rfl, _, rfl⟩

/-- A flag setter, a flag setter that waits, and a form that sets no flags. -/
theorem witness_OnlyFlagSettersWriteCond :
    (∃ t, exec (.addImm .r0 .r0 1#5) State.reset = .next t ∧ flagSource (.addImm .r0 .r0 1#5) = some .r0) ∧
    (∃ t, exec .trapGetc State.reset = .next t ∧ flagSource .trapGetc = some .r0) ∧
    (∃ t, exec (.st .r0 0#9) State.reset = .next t ∧ flagSource (.st .r0 0#9) = none) :=
  ⟨⟨_, rfl, rfl⟩, ⟨_, rfl, rfl⟩, ⟨_, rfl, rfl⟩⟩

theorem witness_OnlyBrReadsCond : (∀ nzp off, Instr.trapGetc ≠ .br nzp off) ∧
    ∃ t u, exec .trapGetc oneKey = .next t ∧ exec .trapGetc { oneKey with cond := 4#16 } = .next u :=
  ⟨nofun, _, _, rfl, rfl⟩

theorem witness_OnlyDestinationRegistersChange :
    ∃ t, exec .trapPuts wrapping = .next t ∧ mayWrite .trapPuts .r0 = false := ⟨_, rfl, rfl⟩

theorem witness_OnlyControlTransfersChangeThePc : ∃ t, exec .trapHalt State.reset = .next t ∧ changesPc .trapHalt = false :=
  ⟨_, rfl, rfl⟩

theorem witness_OnlyStoresChangePlainMemory :
    (∃ t, exec (.ld .r0 0#9) State.reset = .next t ∧ isStore (.ld .r0 0#9) = false) ∧
    (∃ s t, step s = .next t ∧ t.mem.read 0x3001#16 ≠ s.mem.read 0x3001#16) :=
  ⟨⟨_, rfl, rfl⟩, ⟨start 0x3000 [(0x3000, 0x3000)] (regs4 0x1234 0 0 0) [], _, rfl, by decide⟩⟩

theorem witness_TerminalStreamsKeepTheirOrder : ∃ t, step (start 0x3000 [(0x3000, 0xF020)] (regs4 0 0 0 0) [0x41]) = .next t :=
  ⟨_, rfl⟩

theorem witness_OnlyHaltHalts :
    ∃ t, State.reset.run = .running ∧ step (start 0x3000 [(0x3000, 0xF025)] (regs4 0 0 0 0) []) = .next t ∧ t.run = .halted :=
  ⟨_, rfl, rfl, rfl⟩

/-- One form for each of the three conditions. -/
theorem witness_OnlyTheNamedFormsRaise :
    (∃ t, exec .res State.reset = .next t ∧ t.run = .faulted .unimplementedOpcode) ∧
    (∃ t, exec (.trapUndefined 0x1F#8) State.reset = .next t ∧ t.run = .faulted .malformedInstruction) ∧
    (∃ t, exec .trapOut failsAtOnce = .next t ∧ t.run = .faulted .ioFailure) :=
  ⟨⟨_, rfl, rfl⟩, ⟨_, rfl, rfl⟩, ⟨_, rfl, rfl⟩⟩

end Sys2Proof.Tests
end

section
/-! SUPPORT. The family of 00_scope.md: the sign and zero extension of R9, for every width up to the word's. -/

open Sys2Proof Sys2Proof.Machine Sys2Proof.Claims

namespace Sys2Proof.Proofs.Scope

/-- R9 reads one bit, N-1, and it is set exactly when the value reaches 2^(N-1); the sum then stays below 65536, so that
nothing is lost in the 16-bit word. -/
theorem sext_eq_signExtend {n : Nat} (hn : n ≤ 16) (v : BitVec n) : sext v = signExtend v := by
  have hfit : v.toNat % 2 ^ 16 = v.toNat :=
    Nat.mod_eq_of_lt (v.isLt.trans_le (Nat.pow_le_pow_right (by decide) hn))
  apply BitVec.eq_of_toNat_eq
  rw [sext, BitVec.toNat_signExtend, BitVec.toNat_setWidth, hfit, BitVec.msb_eq_decide, signExtend, BitVec.toNat_ofNat]
  by_cases hbit : 2 ^ (n - 1) ≤ v.toNat
  · have hsum : v.toNat + (65536 - 2 ^ n) < 2 ^ 16 := by
      have := v.isLt
      omega
    simpa [hbit] using (Nat.mod_eq_of_lt hsum).symm
  · simpa [hbit] using hfit.symm

/-- R9's second reading: the field and its extension are the same number under R8. -/
theorem toInt_sext {n : Nat} (hn : n ≤ 16) (v : BitVec n) : (sext v).toInt = v.toInt :=
  BitVec.toInt_signExtend_of_le hn

@[simp] theorem toNat_zext16 (b : Byte) : (zext16 b).toNat = b.toNat :=
  BitVec.toNat_setWidth_of_le (by decide)

/-- Settles O5: the two readings of R9 hold at every width up to 16, so at the four widths of the fields. -/
theorem signExtensionKeepsTheSignedValue : Obligations.SignExtensionKeepsTheSignedValue := by
  have hsext {n : Nat} (hn : n ≤ 16) (v : BitVec n) : sext v = signExtend v ∧ (sext v).toInt = v.toInt :=
    ⟨sext_eq_signExtend hn v, toInt_sext hn v⟩
  exact ⟨hsext (by decide), hsext (by decide), hsext (by decide), hsext (by decide), toNat_zext16⟩

end Sys2Proof.Proofs.Scope
end

section
/-! SUPPORT. The family of 10_state.md: the register file of R21 and `SetCC` of R25. -/

open Sys2Proof Sys2Proof.Machine Sys2Proof.Claims

namespace Sys2Proof.Proofs.RegistersAndFlags

/-- No register starts out with a value of its own (R21, R36). -/
@[simp] theorem reset_regs_get (r : Reg) : State.reset.regs.get r = 0x0000#16 := by
  cases r <;> rfl

/-- Settles O3, by the two laws of the register file: `setReg` replaces the file and no other field. -/
theorem registerReadReturnsTheLastWrite : Obligations.RegisterReadReturnsTheLastWrite :=
  ⟨fun s r v => ⟨s.regs.get_set_same r v, fun _ hne => s.regs.get_set_ne v hne, rfl⟩, reset_regs_get⟩

/-- Bit 15 of a word is set exactly when its value reaches 0x8000, so the model's flags are those of R25. -/
theorem condOf_eq_signOf (v : Word) : condOf v = signOf v := by
  have hneg : v.msb = decide (0x8000 ≤ v.toNat) := BitVec.msb_eq_decide v
  have hzero : v = 0x0000#16 ↔ v.toNat = 0 := BitVec.toNat_inj.symm
  simp only [condOf, signOf, hneg, hzero, decide_eq_true_eq, flagNeg, flagZro, flagPos]

/-- Settles O4: `setCC` writes COND alone, and the value it writes is R25's. -/
theorem setCCFollowsTheRegisterValue : Obligations.SetCCFollowsTheRegisterValue := by
  intro r s
  rw [setCC, condOf_eq_signOf]

end Sys2Proof.Proofs.RegistersAndFlags
end

section
/-! SUPPORT. The family of 20_memory.md: `MemWrite` of R54 and the plain reads of R53. -/

open Sys2Proof Sys2Proof.Machine Sys2Proof.Claims

namespace Sys2Proof.Proofs.MemoryAccess

/-- Settles O6: `memWrite` replaces the memory and no other field, and the memory list reads back as R54 says; no address
is treated apart, KBSR and KBDR included. -/
theorem writeStoresOneWordAndNothingElse : Obligations.WriteStoresOneWordAndNothingElse :=
  fun s a v => ⟨s.mem.read_write_same a v, fun _ hne => s.mem.read_write_ne v hne, rfl⟩

/-- Settles O7: only the address of KBSR reaches the refresh, so any other read is the plain one of R53. -/
theorem onlyKbsrReadsHaveASideEffect : Obligations.OnlyKbsrReadsHaveASideEffect :=
  fun s _ hne => memRead_of_ne hne s

end Sys2Proof.Proofs.MemoryAccess
end

section
/-! SUPPORT. The family of 40_instruction_cycle.md: the step of R110. -/

open Sys2Proof Sys2Proof.Machine Sys2Proof.Claims

namespace Sys2Proof.Proofs.InstructionCycle

/-- R110 between two instructions: once the fetch read completes, the step is `exec` of the decoded word, and the PC it
increments is the one the word was read at. -/
theorem step_of_memRead_done {s t : State} {w : Word} (hrun : s.run = .running) (hroutine : s.routine = none)
    (hread : memRead s.pc s = .done w t) : step s = exec (decode w) (t.setPc (s.pc + 1)) := by
  rcases step_cases hrun with ⟨r, hheld, -⟩ | ⟨w', t', -, hdone, -, -, hstep⟩ | ⟨t', -, hstopped, -⟩
  · cases hroutine.symm.trans hheld
  · cases hread.symm.trans hdone
    exact hstep
  · cases hread.symm.trans hstopped

/-- The increment of the PC is the sum modulo 2^16 (R110). -/
theorem add_one_eq_ofNat (a : Word) : a + 1 = BitVec.ofNat 16 (a.toNat + 1) := by
  simp [BitVec.ofNat_add]

/-- Settles O16: every fetch read that completes runs the word it gave, and away from KBSR the read completes with the
stored word and leaves the state as it is. -/
theorem stepRunsTheDecodedInstruction : Obligations.StepRunsTheDecodedInstruction := by
  intro s hrun hroutine
  have hdone (w : Word) (t : State) (hread : memRead s.pc s = .done w t) :
      step s = exec (decode w) { t with pc := BitVec.ofNat 16 (s.pc.toNat + 1) } := by
    rw [step_of_memRead_done hrun hroutine hread, add_one_eq_ofNat, State.setPc]
  exact ⟨fun hne => hdone _ _ (memRead_of_ne hne s), hdone⟩

end Sys2Proof.Proofs.InstructionCycle
end

section
/-! SUPPORT. The family of 41_operate.md: ADD and AND, in the register and the immediate form (R121 to R124). -/

open Sys2Proof Sys2Proof.Machine Sys2Proof.Claims

namespace Sys2Proof.Proofs.Operate

/-! ### The words that are a form -/

/-- The decoder's map from 3-bit fields to registers inverts the numbering of R20. -/
theorem regOfBits_of_toNat {b : BitVec 3} {r : Reg} (h : b.toNat = regNumber r) : regOfBits b = r := by
  rw [regOfBits, h]
  cases r <;> rfl

theorem regField11_of_names {w : Word} {r : Reg} (h : Names w 9 r) : regField11 w = r := regOfBits_of_toNat h

theorem regField8_of_names {w : Word} {r : Reg} (h : Names w 6 r) : regField8 w = r := regOfBits_of_toNat h

theorem regField2_of_names {w : Word} {r : Reg} (h : Names w 0 r) : regField2 w = r := regOfBits_of_toNat h

theorem decode_addReg {w : Word} (hop : opcodeField w = 1#4) (himm : immFlag w = false) :
    decode w = .addReg (regField11 w) (regField8 w) (regField2 w) := by
  simp [decode_add hop, himm]

theorem decode_addImm {w : Word} (hop : opcodeField w = 1#4) (himm : immFlag w = true) :
    decode w = .addImm (regField11 w) (regField8 w) (imm5Field w) := by
  simp [decode_add hop, himm]

theorem decode_andReg {w : Word} (hop : opcodeField w = 5#4) (himm : immFlag w = false) :
    decode w = .andReg (regField11 w) (regField8 w) (regField2 w) := by
  simp [decode_and hop, himm]

theorem decode_andImm {w : Word} (hop : opcodeField w = 5#4) (himm : immFlag w = true) :
    decode w = .andImm (regField11 w) (regField8 w) (imm5Field w) := by
  simp [decode_and hop, himm]

/-! ### What a form does -/

/-- The end of every flag-setting instruction is that of R25 and R26: DR, the flags of its new value, nothing else. -/
theorem writeResult_eq_withResult (dr : Reg) (v : Word) (s : State) : writeResult dr v s = withResult s dr v := by
  rw [writeResult_eq, RegistersAndFlags.condOf_eq_signOf, withResult]

theorem exec_addReg (dr sr1 sr2 : Reg) (s : State) :
    exec (.addReg dr sr1 sr2) s = .next (withResult s dr (s.reg sr1 + s.reg sr2)) :=
  congrArg Host.Outcome.next (writeResult_eq_withResult dr _ s)

theorem exec_addImm (dr sr1 : Reg) (imm5 : BitVec 5) (s : State) :
    exec (.addImm dr sr1 imm5) s = .next (withResult s dr (s.reg sr1 + signExtend imm5)) := by
  rw [← Scope.sext_eq_signExtend (by decide)]
  exact congrArg Host.Outcome.next (writeResult_eq_withResult dr _ s)

theorem exec_andReg (dr sr1 sr2 : Reg) (s : State) :
    exec (.andReg dr sr1 sr2) s = .next (withResult s dr (s.reg sr1 &&& s.reg sr2)) :=
  congrArg Host.Outcome.next (writeResult_eq_withResult dr _ s)

theorem exec_andImm (dr sr1 : Reg) (imm5 : BitVec 5) (s : State) :
    exec (.andImm dr sr1 imm5) s = .next (withResult s dr (s.reg sr1 &&& signExtend imm5)) := by
  rw [← Scope.sext_eq_signExtend (by decide)]
  exact congrArg Host.Outcome.next (writeResult_eq_withResult dr _ s)

/-! ### The statements -/

/-- Settles O24: the decoder looks at no bit outside the fields named, and a sum of words is the sum modulo 2^16. -/
theorem addRegisterForm : Obligations.AddRegisterForm := by
  refine fun dr sr1 sr2 => ⟨fun w hop himm hdr hsr1 hsr2 => ?_, fun s => ?_⟩
  · rw [decode_addReg hop himm, regField11_of_names hdr, regField8_of_names hsr1, regField2_of_names hsr2]
  · rw [exec_addReg, BitVec.add_def]

/-- Settles O25: as O24, with the immediate extended by R9 before the sum. -/
theorem addImmediateForm : Obligations.AddImmediateForm := by
  refine fun dr sr1 imm5 => ⟨fun w hop himm hdr hsr1 himm5 => ?_, fun s => ?_⟩
  · rw [decode_addImm hop himm, regField11_of_names hdr, regField8_of_names hsr1, imm5Field, himm5]
  · rw [exec_addImm, BitVec.add_def]

/-- Settles O26: the result word is the bitwise and of the two sources. -/
theorem andRegisterForm : Obligations.AndRegisterForm := by
  refine fun dr sr1 sr2 => ⟨fun w hop himm hdr hsr1 hsr2 => ?_, fun s => ?_⟩
  · rw [decode_andReg hop himm, regField11_of_names hdr, regField8_of_names hsr1, regField2_of_names hsr2]
  · exact ⟨_, fun _ _ => BitVec.getLsbD_and, exec_andReg dr sr1 sr2 s⟩

/-- Settles O27: as O26, with the immediate extended by R9 before the and. -/
theorem andImmediateForm : Obligations.AndImmediateForm := by
  refine fun dr sr1 imm5 => ⟨fun w hop himm hdr hsr1 himm5 => ?_, fun s => ?_⟩
  · rw [decode_andImm hop himm, regField11_of_names hdr, regField8_of_names hsr1, imm5Field, himm5]
  · exact ⟨_, fun _ _ => BitVec.getLsbD_and, exec_andImm dr sr1 imm5 s⟩

end Sys2Proof.Proofs.Operate
end

section
/-! SUPPORT. The family of 42_data_movement.md: LEA (R134). -/

open Sys2Proof Sys2Proof.Machine Sys2Proof.Claims

namespace Sys2Proof.Proofs.DataMovement

/-- The PC-relative address in R9's own extension. -/
theorem pcRelative9_eq_signExtend (off : BitVec 9) (s : State) : pcRelative9 off s = s.pc + signExtend off := by
  rw [pcRelative9, Scope.sext_eq_signExtend (by decide)]

/-- LEA answers the address itself as DR's new value: no read stands between the two (R134). -/
theorem exec_lea (dr : Reg) (off : BitVec 9) (s : State) :
    exec (.lea dr off) s = .next (withResult s dr (s.pc + signExtend off)) := by
  rw [← pcRelative9_eq_signExtend]
  exact congrArg Host.Outcome.next (Operate.writeResult_eq_withResult dr _ s)

/-- Settles O32: the word names DR and the offset, and the address is the sum modulo 2^16 at every PC. -/
theorem leaForm : Obligations.LeaForm := by
  refine fun dr off => ⟨fun w hop hdr hoff => ?_, fun s => ?_⟩
  · rw [decode_lea hop, Operate.regField11_of_names hdr, pcOffset9Field, hoff]
  · rw [exec_lea, BitVec.add_def]

end Sys2Proof.Proofs.DataMovement
end

section
/-! SUPPORT. The family of 43_control.md: JSR (R148). -/

open Sys2Proof Sys2Proof.Machine Sys2Proof.Claims

namespace Sys2Proof.Proofs.Control

/-- With bit 11 set, opcode 4 is the PC-relative call, and bits 10:0 are its offset (R148). -/
theorem decode_jsr_of_longFlag {w : Word} (hop : opcodeField w = 4#4) (hlong : longFlag w = true) :
    decode w = .jsr (pcOffset11Field w) := by
  rw [decode_jsr hop, if_pos hlong]

/-- The target of JSR in R9's own extension. -/
theorem pcRelative11_eq_signExtend (off : BitVec 11) (s : State) : pcRelative11 off s = s.pc + signExtend off := by
  rw [pcRelative11, Scope.sext_eq_signExtend (by decide)]

/-- JSR is the link and the jump, and both read the PC of the state before the call (R148). -/
theorem exec_jsr (off : BitVec 11) (s : State) :
    exec (.jsr off) s = .next ((link s).setPc (s.pc + signExtend off)) := by
  rw [← pcRelative11_eq_signExtend]
  rfl

/-- Settles O38: the link changes R7 alone, the jump the PC alone, and the target is the sum modulo 2^16 at every PC. -/
theorem jsrForm : Obligations.JsrForm := by
  refine fun off => ⟨fun w hop hlong hoff => ?_, fun s => ?_⟩
  · rw [decode_jsr_of_longFlag hop hlong, pcOffset11Field, hoff]
  · rw [exec_jsr, BitVec.add_def, link, State.setReg, State.setPc]

end Sys2Proof.Proofs.Control
end

section
/-! SUPPORT. The family of 30_encoding.md: decode undoes encode, every word is a well-formed instruction, and the bits
that R85 calls ignored are. -/

open Sys2Proof Sys2Proof.Machine Sys2Proof.Claims

namespace Sys2Proof.Proofs.Encoding

/-! ### Decoding what was encoded (R84, R86) -/

/-- Opcode 4 without the long flag is the call through a register (R149). -/
theorem decode_jsrr_of_longFlag {w : Word} (hop : opcodeField w = 4#4) (hlong : longFlag w = false) :
    decode w = .jsrr (regField8 w) := by
  simp [decode_jsr hop, hlong]

/-- A vector that is none of the six defined ones is the fallback form (R162). -/
theorem decodeTrap_of_not_defined {v : BitVec 8} (h : definedVector v = false) : decodeTrap v = .trapUndefined v := by
  have hne {d : BitVec 8} (hd : definedVector d = true) : v ≠ d := by
    rintro rfl
    cases h.symm.trans hd
  rw [decodeTrap, if_neg (hne rfl), if_neg (hne rfl), if_neg (hne rfl), if_neg (hne rfl), if_neg (hne rfl),
    if_neg (hne rfl)]

theorem decode_encode_trapUndefined {v : BitVec 8} (h : definedVector v = false) :
    decode (encode (.trapUndefined v)) = .trapUndefined v := by
  have hvector : trapVectorField (encode (.trapUndefined v)) = v := by
    simp [trapVectorField, encode, extract_place_same, extract_place_below]
  rw [decode_trap (Laws.OpcodeField.trapUndefined v), hvector, decodeTrap_of_not_defined h]

/-- Form by form: the opcode selects the row, bits 5 and 11 the form within it, and every field is taken out where it
was placed. -/
theorem decode_encode {i : Instr} (h : WellFormed i = true) : decode (encode i) = i := by
  cases i with
  | br nzp off =>
    rw [decode_br (Laws.OpcodeField.br nzp off)]
    simp [condBitsField, pcOffset9Field, encode, extract_place_same, extract_place_below, extract_place_above]
  | addReg dr sr1 sr2 =>
    rw [Operate.decode_addReg (Laws.OpcodeField.addReg dr sr1 sr2) (by simp [immFlag, encode, getElem_place])]
    simp [regField11, regField8, regField2, encode, extract_place_same, extract_place_below, extract_place_above]
  | addImm dr sr1 imm =>
    rw [Operate.decode_addImm (Laws.OpcodeField.addImm dr sr1 imm) (by simp [immFlag, encode, getElem_place])]
    simp [regField11, regField8, imm5Field, encode, extract_place_same, extract_place_below, extract_place_above]
  | ld dr off =>
    rw [decode_ld (Laws.OpcodeField.ld dr off)]
    simp [regField11, pcOffset9Field, encode, extract_place_same, extract_place_below, extract_place_above]
  | st sr off =>
    rw [decode_st (Laws.OpcodeField.st sr off)]
    simp [regField11, pcOffset9Field, encode, extract_place_same, extract_place_below, extract_place_above]
  | jsr off =>
    rw [Control.decode_jsr_of_longFlag (Laws.OpcodeField.jsr off) (by simp [longFlag, encode, getElem_place])]
    simp [pcOffset11Field, encode, extract_place_same, extract_place_below]
  | jsrr base =>
    rw [decode_jsrr_of_longFlag (Laws.OpcodeField.jsrr base) (by simp [longFlag, encode, getElem_place])]
    simp [regField8, encode, extract_place_same, extract_place_below]
  | andReg dr sr1 sr2 =>
    rw [Operate.decode_andReg (Laws.OpcodeField.andReg dr sr1 sr2) (by simp [immFlag, encode, getElem_place])]
    simp [regField11, regField8, regField2, encode, extract_place_same, extract_place_below, extract_place_above]
  | andImm dr sr1 imm =>
    rw [Operate.decode_andImm (Laws.OpcodeField.andImm dr sr1 imm) (by simp [immFlag, encode, getElem_place])]
    simp [regField11, regField8, imm5Field, encode, extract_place_same, extract_place_below, extract_place_above]
  | ldr dr base off =>
    rw [decode_ldr (Laws.OpcodeField.ldr dr base off)]
    simp [regField11, regField8, offset6Field, encode, extract_place_same, extract_place_below, extract_place_above]
  | str sr base off =>
    rw [decode_str (Laws.OpcodeField.str sr base off)]
    simp [regField11, regField8, offset6Field, encode, extract_place_same, extract_place_below, extract_place_above]
  | rti => exact decode_rti Laws.OpcodeField.rti
  | notReg dr sr =>
    rw [decode_not (Laws.OpcodeField.notReg dr sr)]
    simp [regField11, regField8, encode, extract_place_same, extract_place_below, extract_place_above]
  | ldi dr off =>
    rw [decode_ldi (Laws.OpcodeField.ldi dr off)]
    simp [regField11, pcOffset9Field, encode, extract_place_same, extract_place_below, extract_place_above]
  | sti sr off =>
    rw [decode_sti (Laws.OpcodeField.sti sr off)]
    simp [regField11, pcOffset9Field, encode, extract_place_same, extract_place_below, extract_place_above]
  | jmp base =>
    rw [decode_jmp (Laws.OpcodeField.jmp base)]
    simp [regField8, encode, extract_place_same, extract_place_below]
  | res => exact decode_res Laws.OpcodeField.res
  | lea dr off =>
    rw [decode_lea (Laws.OpcodeField.lea dr off)]
    simp [regField11, pcOffset9Field, encode, extract_place_same, extract_place_below, extract_place_above]
  | trapGetc => exact decode_trap Laws.OpcodeField.trapGetc
  | trapOut => exact decode_trap Laws.OpcodeField.trapOut
  | trapPuts => exact decode_trap Laws.OpcodeField.trapPuts
  | trapIn => exact decode_trap Laws.OpcodeField.trapIn
  | trapPutsp => exact decode_trap Laws.OpcodeField.trapPutsp
  | trapHalt => exact decode_trap Laws.OpcodeField.trapHalt
  | trapUndefined v => exact decode_encode_trapUndefined (by simpa [WellFormed] using h)

/-- Settles O12: the one well-formedness check is what keeps the fallback TRAP from naming a defined vector. -/
theorem decodingAnEncodedInstructionGivesItBack : Obligations.DecodingAnEncodedInstructionGivesItBack :=
  fun _ h => decode_encode h

/-! ### Every word is an instruction (R86) -/

/-- The two readings of the six vectors agree: as a range and one by one. -/
theorem definedVector_iff (v : BitVec 8) :
    definedVector v = true ↔
      v = 0x20#8 ∨ v = 0x21#8 ∨ v = 0x22#8 ∨ v = 0x23#8 ∨ v = 0x24#8 ∨ v = 0x25#8 := by
  revert v; decide

/-- A defined vector is a routine, any other the fallback form with that very vector (R155, R162). -/
theorem wellFormed_decodeTrap (v : BitVec 8) : WellFormed (decodeTrap v) = true := by
  cases h : definedVector v with
  | false => simp [decodeTrap_of_not_defined h, WellFormed, h]
  | true => obtain rfl | rfl | rfl | rfl | rfl | rfl := (definedVector_iff v).1 h <;> rfl

theorem wellFormed_decode (w : Word) : WellFormed (decode w) = true := by
  unfold decode
  cases opcodeOfBits (opcodeField w) with
  | trap => exact wellFormed_decodeTrap _
  | add => cases h : immFlag w <;> rfl
  | and => cases h : immFlag w <;> rfl
  | jsr => cases h : longFlag w <;> rfl
  | _ => rfl

/-- A number names the word of its low 16 bits. -/
theorem tableWord_eq (n : Nat) : tableWord 16 n = BitVec.ofNat 16 n := by
  apply BitVec.eq_of_toNat_eq
  simp [tableWord]

/-- Settles O13: the check that is left, the vector of the fallback form, is what `decodeTrap` tests; and the low 16
bits of the number of a table row are the word of that number. -/
theorem everyWordDecodesToAWellFormedInstruction : Obligations.EveryWordDecodesToAWellFormedInstruction := by
  refine ⟨wellFormed_decode, fun n => ?_⟩
  rw [decodeTableWord, if_pos le_rfl, tableWord_eq]

/-! ### Ignored bits (R85) -/

/-- Two words are the same on the bits of a mask. -/
def AgreeOn (m v w : Word) : Prop := ∀ i, m.getLsbD i = true → v.getLsbD i = w.getLsbD i

section
variable {m v w : Word}

/-- A field that the mask covers is the same in both words. -/
theorem AgreeOn.extract {k l : Nat} (h : AgreeOn m v w) (hm : m.extractLsb' k l = BitVec.allOnes l) :
    v.extractLsb' k l = w.extractLsb' k l := by
  apply BitVec.eq_of_getLsbD_eq
  intro i hi
  have hbit : m.getLsbD (k + i) = true := by
    simpa [hi] using congrArg (·.getLsbD i) hm
  simpa [hi] using h _ hbit

theorem AgreeOn.regField11 (h : AgreeOn m v w) (hm : m.extractLsb' 9 3 = BitVec.allOnes 3) :
    regField11 v = regField11 w := congrArg regOfBits (h.extract hm)

theorem AgreeOn.regField8 (h : AgreeOn m v w) (hm : m.extractLsb' 6 3 = BitVec.allOnes 3) :
    regField8 v = regField8 w := congrArg regOfBits (h.extract hm)

theorem AgreeOn.regField2 (h : AgreeOn m v w) (hm : m.extractLsb' 0 3 = BitVec.allOnes 3) :
    regField2 v = regField2 w := congrArg regOfBits (h.extract hm)

/-- A form without ignored bits: the mask covers the word. -/
theorem AgreeOn.decode_of_all (h : AgreeOn m v w) (hm : m = 0xFFFF#16) : decode v = decode w := by
  have hall : v.extractLsb' 0 16 = w.extractLsb' 0 16 := h.extract (by subst hm; rfl)
  simp only [BitVec.extractLsb'_eq_self] at hall
  rw [hall]

end

/-- Every form uses its opcode bits. -/
theorem opcode_covered_by_usedBits (w : Word) : (usedBits w).extractLsb' 12 4 = BitVec.allOnes 4 := by
  unfold usedBits
  split
  · split <;> rfl
  · split <;> rfl
  · split <;> rfl
  all_goals rfl

/-- Opcode by opcode: the two words have the same opcode, the same flag bit where it selects the form, and the same
fields where the form ignores bits. -/
theorem decode_of_agreeOn_usedBits {v w : Word} (h : AgreeOn (usedBits w) v w) : decode v = decode w := by
  have hsame : opcodeField v = opcodeField w := h.extract (opcode_covered_by_usedBits w)
  rcases opcode_cases (w.extractLsb' 12 4) with
    hop | hop | hop | hop | hop | hop | hop | hop | hop | hop | hop | hop | hop | hop | hop | hop <;>
    replace hsame := hsame.trans hop <;> simp only [usedBits, hop, BitVec.reduceToNat] at h
  · exact h.decode_of_all rfl
  · cases himm : w.getLsbD 5 <;> simp only [himm] at h
    · rw [Operate.decode_addReg hsame ((h 5 rfl).trans himm), Operate.decode_addReg hop himm, h.regField11 rfl,
        h.regField8 rfl, h.regField2 rfl]
    · exact h.decode_of_all rfl
  · exact h.decode_of_all rfl
  · exact h.decode_of_all rfl
  · cases hlong : w.getLsbD 11 <;> simp only [hlong] at h
    · rw [decode_jsrr_of_longFlag hsame ((h 11 rfl).trans hlong), decode_jsrr_of_longFlag hop hlong, h.regField8 rfl]
    · exact h.decode_of_all rfl
  · cases himm : w.getLsbD 5 <;> simp only [himm] at h
    · rw [Operate.decode_andReg hsame ((h 5 rfl).trans himm), Operate.decode_andReg hop himm, h.regField11 rfl,
        h.regField8 rfl, h.regField2 rfl]
    · exact h.decode_of_all rfl
  · exact h.decode_of_all rfl
  · exact h.decode_of_all rfl
  · rw [decode_rti hsame, decode_rti hop]
  · rw [decode_not hsame, decode_not hop, h.regField11 rfl, h.regField8 rfl]
  · exact h.decode_of_all rfl
  · exact h.decode_of_all rfl
  · rw [decode_jmp hsame, decode_jmp hop, h.regField8 rfl]
  · rw [decode_res hsame, decode_res hop]
  · exact h.decode_of_all rfl
  · rw [decode_trap hsame, decode_trap hop]
    exact congrArg decodeTrap (h.extract rfl)

/-- Settles O14: agreement on the used bits is the hypothesis. -/
theorem ignoredBitsDoNotChangeTheInstruction : Obligations.IgnoredBitsDoNotChangeTheInstruction :=
  fun _ _ h => decode_of_agreeOn_usedBits h

/-- Settles O15: eleven closed words, each evaluated by the decoder. -/
theorem wordsWrittenFromTheFormatsDecodeRight : Obligations.WordsWrittenFromTheFormatsDecodeRight := by
  unfold Obligations.WordsWrittenFromTheFormatsDecodeRight
  decide

end Sys2Proof.Proofs.Encoding
end

section
/-! SUPPORT. What any instruction and any step can do, said once (`exec_ends`, `step_ends`): the entry, then Terminal
operations and memory reads, then one last write. The rules of the whole machine are read off it. -/

open Sys2Proof Sys2Proof.Machine Sys2Proof.Claims

namespace Sys2Proof.Proofs.WholeMachine

/-! ### The parts of an instruction -/

/-- The forms that begin with the link write: the calls and every TRAP (R22). -/
def links (i : Instr) : Bool :=
  match i with
  | .jsr _ | .jsrr _ => true
  | .trapGetc | .trapOut | .trapPuts | .trapIn | .trapPutsp | .trapHalt | .trapUndefined _ => true
  | _ => false

/-- The state after the entry of an instruction: linked or as it was. -/
def entered (i : Instr) (s : State) : State := if links i then link s else s

/-- The last write of an instruction that completes, from `t`. -/
inductive LastWrite (i : Instr) (t : State) : State → Prop where
  | nothing : LastWrite i t t
  | result {r : Reg} (v : Word) : flagSource i = some r → LastWrite i t (writeResult r v t)
  | jump (a : Word) : changesPc i = true → LastWrite i t (t.setPc a)
  | store (a v : Word) : isStore i = true → LastWrite i t (memWrite a v t)
  | halts : i = .trapHalt → LastWrite i t (halt t)
  | undefinedVector {v : BitVec 8} : i = .trapUndefined v → LastWrite i t (raise .malformedInstruction t)
  | unimplemented : i = .rti ∨ i = .res → LastWrite i t (raise .unimplementedOpcode t)

/-- The ways instruction `i` can end, entered in `e`: it completes, a Terminal operation fails, or it is held. -/
inductive Ends (i : Instr) (e : State) : State → Prop where
  | complete {t u : State} : Touches e t → t.run = e.run → LastWrite i t u → Ends i e u
  | failed {t : State} : mayFail i = true → Touches e t → t.run = .faulted .ioFailure → Ends i e t
  | held {t : State} (x : Routine) : Touches e t → t.run = e.run → Ends i e { t with routine := some x }

theorem LastWrite.ends {i : Instr} {e u : State} (h : LastWrite i e u) : Ends i e u :=
  .complete (Touches.refl e) rfl h

theorem Ends.after {i : Instr} {e t u : State} (h : Touches e t) (hrun : t.run = e.run) (k : Ends i t u) :
    Ends i e u := by
  cases k with
  | complete k hk hu => exact .complete (h.trans k) (hk.trans hrun) hu
  | failed hfail k hk => exact .failed hfail (h.trans k) hk
  | held x k hk => exact .held x (h.trans k) (hk.trans hrun)

/-- A Terminal operation or a memory read, and the statements after it. -/
theorem Ends.andThen {α : Type} {i : Instr} {e : State} {r : Result α} {k : α → State → State}
    (hfail : mayFail i = true) (h : r.Touching e) (hk : ∀ a t, Ends i t (k a t)) : Ends i e (r.andThen k) := by
  cases r with
  | done a t => exact (hk a t).after h.1 h.2
  | stopped t => exact .failed hfail h.1 h.2

/-- A piece of a routine that makes the last writes of `i` when it is complete. -/
theorem Ends.of_routineEnd {i : Instr} {e u : State} {f : State → State} {p : Routine → Prop}
    (hfail : mayFail i = true) (hf : ∀ t, LastWrite i t (f t)) (h : RoutineEnd e f p u) : Ends i e u := by
  cases h with
  | complete h hrun => exact .complete h hrun (hf _)
  | failed h hrun => exact .failed hfail h hrun
  | held h hrun _ => exact .held _ h hrun

/-- Every instruction answers a next state, and it is one of the ends of its form (R112). -/
theorem exec_ends (i : Instr) (s : State) : ∃ u, exec i s = .next u ∧ Ends i (entered i s) u := by
  cases i with
  | br nzp off =>
    refine ⟨_, rfl, ?_⟩
    cases branchTaken nzp s with
    | true => exact (LastWrite.jump _ rfl).ends
    | false => exact LastWrite.nothing.ends
  | addReg | addImm | andReg | andImm | notReg | lea => exact ⟨_, rfl, (LastWrite.result _ rfl).ends⟩
  | st | str => exact ⟨_, rfl, (LastWrite.store _ _ rfl).ends⟩
  | jsr | jsrr | jmp => exact ⟨_, rfl, (LastWrite.jump _ rfl).ends⟩
  | ld | ldr =>
    exact ⟨_, rfl, .andThen rfl (memRead_touching _ _) fun _ _ => (LastWrite.result _ rfl).ends⟩
  | ldi =>
    exact ⟨_, rfl, .andThen rfl (memRead_touching _ _) fun _ _ =>
      .andThen rfl (memRead_touching _ _) fun _ _ => (LastWrite.result _ rfl).ends⟩
  | sti => exact ⟨_, rfl, .andThen rfl (memRead_touching _ _) fun _ _ => (LastWrite.store _ _ rfl).ends⟩
  | rti => exact ⟨_, rfl, (LastWrite.unimplemented (.inl rfl)).ends⟩
  | res => exact ⟨_, rfl, (LastWrite.unimplemented (.inr rfl)).ends⟩
  | trapGetc =>
    obtain ⟨c, h⟩ := getcAfter_end (termRead_touching (link s))
    exact ⟨_, rfl, .of_routineEnd rfl (fun _ => .result _ rfl) h⟩
  | trapOut => exact ⟨_, rfl, .andThen rfl (termWrite_touching _ _) fun _ _ => LastWrite.nothing.ends⟩
  | trapPuts => exact ⟨_, rfl, .of_routineEnd rfl (fun _ => .nothing) (putsBody_end _ _)⟩
  | trapIn =>
    refine ⟨_, rfl, .andThen rfl (termWriteAll_touching _ _) fun _ t => ?_⟩
    obtain ⟨c, h⟩ := inAfter_end (termRead_touching t)
    exact .of_routineEnd rfl (fun _ => .result _ rfl) h
  | trapPutsp => exact ⟨_, rfl, .of_routineEnd rfl (fun _ => .nothing) (putspBody_end _ _)⟩
  | trapHalt => exact ⟨_, rfl, .andThen rfl (termWriteAll_touching _ _) fun _ _ => (LastWrite.halts rfl).ends⟩
  | trapUndefined v => exact ⟨_, rfl, (LastWrite.undefinedVector rfl).ends⟩

theorem ends_of_exec {i : Instr} {s u : State} (h : exec i s = .next u) : Ends i (entered i s) u := by
  obtain ⟨u', hu, hends⟩ := exec_ends i s
  cases h.symm.trans hu
  exact hends

/-- The form whose routine is under way. -/
def formOf (x : Routine) : Instr :=
  match x with
  | .getc => .trapGetc
  | .inn => .trapIn
  | .puts _ => .trapPuts
  | .putsp _ => .trapPutsp

/-- A resumed routine ends as its form ends, and writes no link again (R114). -/
theorem resume_ends (x : Routine) (s : State) : Ends (formOf x) { s with routine := none } (resume x s) := by
  cases x with
  | getc =>
    obtain ⟨c, h⟩ := getcAfter_end (termAwait_touching { s with routine := none })
    exact .of_routineEnd rfl (fun _ => .result _ rfl) h
  | inn =>
    obtain ⟨c, h⟩ := inAfter_end (termAwait_touching { s with routine := none })
    exact .of_routineEnd rfl (fun _ => .result _ rfl) h
  | puts a => exact .of_routineEnd rfl (fun _ => .nothing) (putsBody_end _ _)
  | putsp a => exact .of_routineEnd rfl (fun _ => .nothing) (putspBody_end _ _)

/-- A step is answered exactly while the engine is Running (R113). -/
theorem run_of_step {s u : State} (h : step s = .next u) : s.run = .running := by
  cases hrun : s.run with
  | running => rfl
  | halted => simp [step, hrun] at h
  | faulted c => simp [step, hrun] at h

/-- Everything a step can do: a held routine goes on, a fetched instruction runs, or the fetch fails (R110, R114). -/
theorem step_ends {s u : State} (h : step s = .next u) :
    (∃ x, s.routine = some x ∧ Ends (formOf x) { s with routine := none } u) ∨
    (∃ w t, s.routine = none ∧ memRead s.pc s = .done w t ∧ Touches s t ∧ t.run = s.run ∧
      Ends (decode w) (entered (decode w) (t.setPc (s.pc + 1))) u) ∨
    (s.routine = none ∧ Touches s u ∧ u.run = .faulted .ioFailure) := by
  have hrun := run_of_step h
  rcases step_cases hrun with ⟨x, hx, hstep⟩ | ⟨w, t, hnone, hread, ht, htrun, hstep⟩ | ⟨t, hnone, -, ht, htrun, hstep⟩
  · cases h.symm.trans hstep
    exact .inl ⟨x, hx, resume_ends x s⟩
  · exact .inr (.inl ⟨w, t, hnone, hread, ht, htrun.trans hrun.symm, ends_of_exec (hstep.symm.trans h)⟩)
  · cases h.symm.trans hstep
    exact .inr (.inr ⟨hnone, ht, htrun⟩)

/-! ### What the entry leaves unchanged -/

section
variable (i : Instr) (s : State)

@[simp] theorem entered_pc : (entered i s).pc = s.pc := by unfold entered; split <;> rfl
@[simp] theorem entered_cond : (entered i s).cond = s.cond := by unfold entered; split <;> rfl
@[simp] theorem entered_mem : (entered i s).mem = s.mem := by unfold entered; split <;> rfl
@[simp] theorem entered_run : (entered i s).run = s.run := by unfold entered; split <;> rfl
@[simp] theorem entered_inQ : (entered i s).inQ = s.inQ := by unfold entered; split <;> rfl
@[simp] theorem entered_out : (entered i s).out = s.out := by unfold entered; split <;> rfl
@[simp] theorem entered_host : (entered i s).host = s.host := by unfold entered; split <;> rfl
@[simp] theorem entered_routine : (entered i s).routine = s.routine := by unfold entered; split <;> rfl

end

/-- The link writes R7 alone. -/
theorem entered_reg {i : Instr} {r : Reg} (s : State) (h : links i = true → r ≠ .r7) :
    (entered i s).reg r = s.reg r := by
  unfold entered
  split
  · next hlinks => exact RegFile.get_set_ne _ _ (h hlinks)
  · rfl

/-- R7 is among the registers a linking form may write (R22). -/
theorem mayWrite_r7_of_links {i : Instr} (h : links i = true) : mayWrite i .r7 = true := by
  revert h
  cases i <;> simp [links, mayWrite]

/-- The register a flag-setting form writes is one it may write. -/
theorem mayWrite_of_flagSource {i : Instr} {r : Reg} (h : flagSource i = some r) : mayWrite i r = true := by
  cases i <;> cases h <;> simp [mayWrite]

/-- A linking form that sets flags does so from R0. -/
theorem ne_r7_of_flagSource {i : Instr} {r : Reg} (h : flagSource i = some r) (hlinks : links i = true) : r ≠ .r7 := by
  cases i <;> cases hlinks <;> cases h <;> decide

/-! ### The streams of the Terminal (R34) -/

/-- From `s` to `u` the output grew at its end, and the pending input took the bytes of some of the host's moves at its
tail and lost some at its head. -/
structure Streams (s u : State) : Prop where
  out : s.out <+: u.out
  io : ∃ n k, u.host = s.host.drop n ∧ u.inQ = (s.inQ ++ (s.host.take n).flatMap HostMove.arrive).drop k

/-- As far as the streams go, `u` is reached by Terminal operations. -/
theorem Streams.touches {s u : State} (h : Streams s u) :
    Touches s { s with inQ := u.inQ, out := u.out, host := u.host } :=
  ⟨rfl, rfl, rfl, rfl, fun _ _ _ => rfl, id, .inl rfl, h.out, h.io⟩

theorem Streams.trans {s t u : State} (h : Streams s t) (k : Streams t u) : Streams s u := by
  have k' : Streams { s with inQ := t.inQ, out := t.out, host := t.host } u := ⟨k.out, k.io⟩
  have hu := h.touches.trans k'.touches
  exact ⟨hu.out, hu.io⟩

/-! ### What a last write and an end leave unchanged -/

section
variable {i : Instr} {e t u : State}

theorem LastWrite.streams (h : LastWrite i t u) : u.out = t.out ∧ u.inQ = t.inQ ∧ u.host = t.host := by
  cases h <;> exact ⟨rfl, rfl, rfl⟩

theorem LastWrite.routine (h : LastWrite i t u) : u.routine = t.routine := by
  cases h <;> rfl

theorem LastWrite.memWf (h : LastWrite i t u) (hwf : t.mem.wf) : u.mem.wf := by
  cases h with
  | store a v _ => exact Memory.wf_write hwf a v
  | _ => exact hwf

theorem LastWrite.mem (h : LastWrite i t u) (hstore : isStore i = false) : u.mem = t.mem := by
  cases h with
  | store a v hi => cases hstore.symm.trans hi
  | _ => rfl

theorem LastWrite.pc (h : LastWrite i t u) (hpc : changesPc i = false) : u.pc = t.pc := by
  cases h with
  | jump a hi => cases hpc.symm.trans hi
  | _ => rfl

/-- COND and the registers are written together, the register of a flag-setting form and its sign, or not at all. -/
theorem LastWrite.result_or_kept (h : LastWrite i t u) :
    (∃ r v, flagSource i = some r ∧ u.regs = t.regs.set r v ∧ u.cond = signOf v) ∨
    (u.regs = t.regs ∧ u.cond = t.cond) := by
  cases h with
  | result v hr => exact .inl ⟨_, v, hr, rfl, by rw [writeResult_cond, RegistersAndFlags.condOf_eq_signOf]⟩
  | _ => exact .inr ⟨rfl, rfl⟩

/-- The last writes that end a run, by the forms that make them. -/
theorem LastWrite.run (h : LastWrite i t u) :
    u.run = t.run ∨ (u.run = .halted ∧ i = .trapHalt) ∨
    (u.run = .faulted .malformedInstruction ∧ ∃ v, i = .trapUndefined v) ∨
    (u.run = .faulted .unimplementedOpcode ∧ (i = .rti ∨ i = .res)) := by
  cases h with
  | halts hi => exact .inr (.inl ⟨rfl, hi⟩)
  | undefinedVector hi => exact .inr (.inr (.inl ⟨rfl, _, hi⟩))
  | unimplemented hi => exact .inr (.inr (.inr ⟨rfl, hi⟩))
  | _ => exact .inl rfl

theorem Ends.streams (h : Ends i e u) : Streams e u := by
  cases h with
  | complete ht _ hu =>
    obtain ⟨hout, hinQ, hhost⟩ := hu.streams
    exact ⟨hout ▸ ht.out, by rw [hinQ, hhost]; exact ht.io⟩
  | failed _ ht _ => exact ⟨ht.out, ht.io⟩
  | held x ht _ => exact ⟨ht.out, ht.io⟩

theorem Ends.memWf (h : Ends i e u) (hwf : e.mem.wf) : u.mem.wf := by
  cases h with
  | complete ht _ hu => exact hu.memWf (ht.memWf hwf)
  | failed _ ht _ => exact ht.memWf hwf
  | held x ht _ => exact ht.memWf hwf

/-- A form that is no store changes KBSR and KBDR alone (R28). -/
theorem Ends.mem (h : Ends i e u) (hstore : isStore i = false) {a : Word} (hkbsr : a ≠ kbsrAddr)
    (hkbdr : a ≠ kbdrAddr) : u.mem.read a = e.mem.read a := by
  cases h with
  | complete ht _ hu => rw [hu.mem hstore, ht.mem a hkbsr hkbdr]
  | failed _ ht _ => exact ht.mem a hkbsr hkbdr
  | held x ht _ => exact ht.mem a hkbsr hkbdr

theorem Ends.pc (h : Ends i e u) (hpc : changesPc i = false) : u.pc = e.pc := by
  cases h with
  | complete ht _ hu => rw [hu.pc hpc, ht.pc]
  | failed _ ht _ => exact ht.pc
  | held x ht _ => exact ht.pc

theorem Ends.result_or_kept (h : Ends i e u) :
    (∃ r v, flagSource i = some r ∧ u.regs = e.regs.set r v ∧ u.cond = signOf v) ∨
    (u.regs = e.regs ∧ u.cond = e.cond) := by
  cases h with
  | complete ht _ hu => simpa only [ht.regs, ht.cond] using hu.result_or_kept
  | failed _ ht _ => exact .inr ⟨ht.regs, ht.cond⟩
  | held x ht _ => exact .inr ⟨ht.regs, ht.cond⟩

/-- A routine is left under way by a hold alone, and a hold leaves the run state (R114). -/
theorem Ends.routine (h : Ends i e u) : u.routine = e.routine ∨ u.run = e.run := by
  cases h with
  | complete ht _ hu => exact .inl (hu.routine.trans ht.routine)
  | failed _ ht _ => exact .inl ht.routine
  | held x _ hrun => exact .inr hrun

/-- The ends of a run, by the forms that bring them about (R113, R180). -/
theorem Ends.run (h : Ends i e u) :
    u.run = e.run ∨ (u.run = .halted ∧ i = .trapHalt) ∨
    (u.run = .faulted .malformedInstruction ∧ ∃ v, i = .trapUndefined v) ∨
    (u.run = .faulted .unimplementedOpcode ∧ (i = .rti ∨ i = .res)) ∨
    (u.run = .faulted .ioFailure ∧ mayFail i = true ∧ Touches e u) := by
  cases h with
  | complete ht hrun hu =>
    rcases hu.run with hsame | hhalt | hundefined | hunimplemented
    · exact .inl (hsame.trans hrun)
    · exact .inr (.inl hhalt)
    · exact .inr (.inr (.inl hundefined))
    · exact .inr (.inr (.inr (.inl hunimplemented)))
  | failed hfail ht hrun => exact .inr (.inr (.inr (.inr ⟨hrun, hfail, ht⟩)))
  | held x _ hrun => exact .inl hrun

end

/-! ### The invariant -/

/-- COND holds exactly one of the flags (R27). -/
def OneFlag (c : Word) : Prop := c = flagNeg ∨ c = flagZro ∨ c = flagPos

theorem oneFlag_signOf (v : Word) : OneFlag (signOf v) := by
  unfold signOf
  split
  · exact .inl rfl
  · split
    · exact .inr (.inl rfl)
    · exact .inr (.inr rfl)

theorem Ends.oneFlag {i : Instr} {e u : State} (h : Ends i e u) (hflag : OneFlag e.cond) : OneFlag u.cond := by
  rcases h.result_or_kept with ⟨r, v, -, -, hcond⟩ | ⟨-, hcond⟩
  · exact hcond ▸ oneFlag_signOf v
  · exact hcond ▸ hflag

/-- An end keeps the invariant if it was entered by a Running engine inside no routine. -/
theorem Ends.invariant {i : Instr} {e u : State} (h : Ends i e u) (hwf : e.mem.wf) (hflag : OneFlag e.cond)
    (hrun : e.run = .running) (hroutine : e.routine = none) : StateInvariant u where
  memWf := h.memWf hwf
  condOne := h.oneFlag hflag
  routineRunning hheld := by
    rcases h.routine with hkept | hsame
    · exact absurd (hkept.trans hroutine) hheld
    · exact hsame.trans hrun

theorem step_keeps_invariant {s u : State} (hinv : StateInvariant s) (h : step s = .next u) : StateInvariant u := by
  have hrun := run_of_step h
  rcases step_ends h with ⟨x, -, hends⟩ | ⟨w, t, hnone, -, ht, htrun, hends⟩ | ⟨hnone, ht, -⟩
  · exact hends.invariant hinv.memWf hinv.condOne hrun rfl
  · refine hends.invariant ?_ ?_ ?_ ?_
    · simpa using ht.memWf hinv.memWf
    · rw [entered_cond, State.setPc_cond, ht.cond]
      exact hinv.condOne
    · simpa using htrun.trans hrun
    · simpa using ht.routine.trans hnone
  · exact ⟨ht.memWf hinv.memWf, ht.cond ▸ hinv.condOne, fun hheld => absurd (ht.routine.trans hnone) hheld⟩

/-- Settles O50: every end of every form keeps the three parts, and an instruction is entered inside no routine. -/
theorem everyStepKeepsTheInvariant : Obligations.EveryStepKeepsTheInvariant :=
  fun _ _ hinv h => step_keeps_invariant hinv h

/-- Settles O52: `exec_ends` for the instructions; a Running engine's step is one of three, each a next state. -/
theorem everyInstructionAnswersANextState : Obligations.EveryInstructionAnswersANextState := by
  have hexec (i : Instr) (s : State) : ∃ u, exec i s = .next u := (exec_ends i s).imp fun _ h => h.1
  refine ⟨hexec, fun s => ⟨fun hrun => ?_, fun ⟨_, h⟩ => run_of_step h⟩⟩
  rcases step_cases hrun with ⟨x, -, hstep⟩ | ⟨w, t, -, -, -, -, hstep⟩ | ⟨t, -, -, -, -, hstep⟩
  · exact ⟨_, hstep⟩
  · exact hstep ▸ hexec _ _
  · exact ⟨_, hstep⟩

theorem boot_invariant (image : List (Word × Word)) (input : List Byte) (script : List HostMove) :
    StateInvariant (State.boot image input script) :=
  ⟨Memory.wf_load image, .inr (.inl rfl), fun h => absurd rfl h⟩

/-- Settles O2: reset is the boot state of nothing, and a boot state is reset with a loaded memory. -/
theorem resetAndBootMeetTheInvariant : Obligations.ResetAndBootMeetTheInvariant :=
  ⟨rfl, boot_invariant [] [] [], rfl, fun image input script => ⟨boot_invariant image input script, rfl⟩⟩

theorem reaches_invariant {s t : State} (h : Reaches s t) (hinv : StateInvariant s) : StateInvariant t := by
  induction h with
  | refl => exact hinv
  | step _ hstep ih => exact step_keeps_invariant ih hstep
  | input bs _ ih => exact ⟨ih.memWf, ih.condOne, ih.routineRunning⟩

/-- Settles O51: the invariant holds at boot and along every run. -/
theorem everyReachedStateHasOneFlagAndGoesOn : Obligations.EveryReachedStateHasOneFlagAndGoesOn := by
  intro image input script t h
  have hinv := reaches_invariant h (boot_invariant image input script)
  refine ⟨?_, hinv.memWf, (everyInstructionAnswersANextState.2 t).1⟩
  rcases hinv.condOne with hneg | hzro | hpos
  · exact .inr (.inr hneg)
  · exact .inr (.inl hzro)
  · exact .inl hpos

/-! ### Who writes what -/

/-- Settles O53: COND and the register are written together or not at all, and the entry of a flag-setting form leaves
that register. -/
theorem onlyFlagSettersWriteCond : Obligations.OnlyFlagSettersWriteCond := by
  intro i s u h
  have hkept := (ends_of_exec h).result_or_kept
  rw [entered_cond] at hkept
  refine ⟨fun hnone => ?_, fun r hr => ?_⟩
  · rcases hkept with ⟨r, v, hr, -, -⟩ | ⟨-, hcond⟩
    · cases hnone.symm.trans hr
    · exact hcond
  · rcases hkept with ⟨r', v, hr', hregs, hcond⟩ | ⟨hregs, hcond⟩
    · cases hr.symm.trans hr'
      left
      rw [hcond, State.reg_eq, hregs, RegFile.get_set_same]
    · right
      refine ⟨hcond, ?_⟩
      rw [← entered_reg s (ne_r7_of_flagSource hr), State.reg_eq, hregs, State.reg_eq]

/-- Settles O55: the entry writes R7, the last write the register of the flags, and both are registers the form may
write. -/
theorem onlyDestinationRegistersChange : Obligations.OnlyDestinationRegistersChange := by
  intro i s u r h hno
  have hne {q : Reg} (hq : mayWrite i q = true) : r ≠ q := by
    rintro rfl
    cases hno.symm.trans hq
  rw [← entered_reg s fun hlinks => hne (mayWrite_r7_of_links hlinks), State.reg_eq, State.reg_eq]
  rcases (ends_of_exec h).result_or_kept with ⟨q, v, hq, hregs, -⟩ | ⟨hregs, -⟩
  · rw [hregs, RegFile.get_set_ne _ _ (hne (mayWrite_of_flagSource hq))]
  · rw [hregs]

/-- Settles O56: the entry, the Terminal and memory leave the PC, and only a control transfer's last write is a jump. -/
theorem onlyControlTransfersChangeThePc : Obligations.OnlyControlTransfersChangeThePc := by
  intro i s u h hpc
  rw [(ends_of_exec h).pc hpc, entered_pc]

/-- Settles O57: KBSR and KBDR apart, memory is written by a store's last write alone, and no routine is a store's. -/
theorem onlyStoresChangePlainMemory : Obligations.OnlyStoresChangePlainMemory := by
  refine ⟨fun i s u a h hstore hkbsr hkbdr => ?_, fun s u a h hkbsr hkbdr hchanged => ?_⟩
  · rw [(ends_of_exec h).mem hstore hkbsr hkbdr, entered_mem]
  · rcases step_ends h with ⟨x, -, hends⟩ | ⟨w, t, hnone, hread, ht, -, hends⟩ | ⟨-, ht, -⟩
    · have hstore : isStore (formOf x) = false := by cases x <;> rfl
      exact absurd (hends.mem hstore hkbsr hkbdr) hchanged
    · refine ⟨w, t, hnone, hread, Bool.of_not_eq_false fun hstore => hchanged ?_⟩
      rw [hends.mem hstore hkbsr hkbdr, entered_mem, State.setPc_mem, ht.mem a hkbsr hkbdr]
    · exact absurd (ht.mem a hkbsr hkbdr) hchanged

theorem step_streams {s u : State} (h : step s = .next u) : Streams s u := by
  rcases step_ends h with ⟨x, -, hends⟩ | ⟨w, t, -, -, ht, -, hends⟩ | ⟨-, ht, -⟩
  · exact ⟨hends.streams.out, hends.streams.io⟩
  · have hentered : Streams t (entered (decode w) (t.setPc (s.pc + 1))) := ⟨by simp, 0, 0, by simp, by simp⟩
    exact (Streams.mk ht.out ht.io).trans (hentered.trans hends.streams)
  · exact ⟨ht.out, ht.io⟩

/-- Settles O58: the fetch and the instruction are one stretch of Terminal operations. -/
theorem terminalStreamsKeepTheirOrder : Obligations.TerminalStreamsKeepTheirOrder := by
  refine ⟨fun s u h => ?_, fun _ _ => rfl⟩
  obtain ⟨⟨bs, hout⟩, hio⟩ := step_streams h
  exact ⟨⟨bs, hout.symm⟩, hio⟩

theorem Ends.form_of_halted {i : Instr} {e u : State} (h : Ends i e u) (hrun : e.run = .running)
    (hhalted : u.run = .halted) : i = .trapHalt := by
  have hends := h.run
  rw [hhalted, hrun] at hends
  rcases hends with hsame | ⟨-, hi⟩ | ⟨hc, -⟩ | ⟨hc, -⟩ | ⟨hc, -⟩
  · cases hsame
  · exact hi
  · cases hc
  · cases hc
  · cases hc

/-- Settles O59: no held routine is HALT's, and a fetch that fails ends in Faulted. -/
theorem onlyHaltHalts : Obligations.OnlyHaltHalts := by
  intro s u hrun h hhalted
  rcases step_ends h with ⟨x, -, hends⟩ | ⟨w, t, hnone, hread, -, htrun, hends⟩ | ⟨-, -, hfaulted⟩
  · have hform := hends.form_of_halted hrun hhalted
    cases x <;> cases hform
  · exact ⟨w, t, hnone, hread, hends.form_of_halted ((entered_run _ _).trans (htrun.trans hrun)) hhalted⟩
  · cases hhalted.symm.trans hfaulted

/-- Settles O60: each fatal condition has its forms among the ends, and IoFailure comes with a failing move of the
host. -/
theorem onlyTheNamedFormsRaise : Obligations.OnlyTheNamedFormsRaise := by
  intro i s u c hrun h hfaulted
  have hends := (ends_of_exec h).run
  rw [entered_run, hrun, hfaulted] at hends
  rcases hends with hsame | ⟨hhalt, -⟩ | ⟨hc, hi⟩ | ⟨hc, hi⟩ | ⟨hc, hfail, ht⟩
  · cases hsame
  · cases hhalt
  · cases hc
    exact .inr (.inl ⟨rfl, hi⟩)
  · cases hc
    exact .inl ⟨rfl, hi⟩
  · cases hc
    rcases ht.run with hkept | ⟨-, hhost⟩
    · cases (hfaulted.symm.trans hkept).trans ((entered_run i s).trans hrun)
    · exact .inr (.inr ⟨rfl, hfail, by simpa using hhost⟩)

end Sys2Proof.Proofs.WholeMachine
end

section
/-! SUPPORT. "Read only by BR" (R26): every operation but the branch test does with another COND what it does with this
one, and the last write of a flag-setting form writes over either. -/

open Sys2Proof Sys2Proof.Machine Sys2Proof.Claims

namespace Sys2Proof.Proofs.CondIsReadByBr

/-- The state with another COND. -/
def withCond (c : Word) (s : State) : State := { s with cond := c }

/-- The end of a statement, with `f` of the state it ends in. -/
def mapResult {α : Type} (f : State → State) (r : Result α) : Result α :=
  match r with
  | .done a s => .done a (f s)
  | .stopped s => .stopped (f s)

/-- As `mapResult`, for a read of the Terminal. -/
def mapRead (f : State → State) (r : ReadOutcome) : ReadOutcome :=
  match r with
  | .byte b s => .byte b (f s)
  | .hold s => .hold (f s)
  | .failed s => .failed (f s)

/-! ### Statements that carry COND along -/

section
variable (c : Word)

theorem nextMove_withCond (s : State) : (withCond c s).nextMove = s.nextMove := rfl

theorem termWrite_withCond (b : Byte) (s : State) :
    termWrite b (withCond c s) = mapResult (withCond c) (termWrite b s) := by
  unfold termWrite
  rw [nextMove_withCond]
  split <;> rfl

theorem termAwait_withCond (s : State) : termAwait (withCond c s) = mapRead (withCond c) (termAwait s) := by
  have hinQ : (withCond c s).takeMove.inQ = s.takeMove.inQ := rfl
  unfold termAwait
  rw [hinQ]
  cases s.takeMove.inQ <;> rfl

theorem termRead_withCond (s : State) : termRead (withCond c s) = mapRead (withCond c) (termRead s) := by
  unfold termRead
  rw [nextMove_withCond]
  split
  · rfl
  · exact termAwait_withCond c s

theorem termWriteEach_withCond (bs : List Byte) (s : State) :
    termWriteEach bs (withCond c s) = mapResult (withCond c) (termWriteEach bs s) := by
  induction bs generalizing s with
  | nil => rfl
  | cons b rest ih =>
    simp only [termWriteEach, termWrite_withCond]
    cases termWrite b s with
    | done x t => exact ih t
    | stopped t => rfl

theorem termWriteAll_withCond (bs : List Byte) (s : State) :
    termWriteAll bs (withCond c s) = mapResult (withCond c) (termWriteAll bs s) := by
  simp only [termWriteAll_eq, termWriteEach_withCond]

theorem kbsrRefresh_withCond (s : State) :
    kbsrRefresh (withCond c s) = mapResult (withCond c) (kbsrRefresh s) := by
  have hpoll : termPoll (withCond c s) = ((termPoll s).1, withCond c (termPoll s).2) := rfl
  simp only [kbsrRefresh, hpoll, termRead_withCond]
  split
  · cases termRead (termPoll s).2 <;> rfl
  · rfl

theorem memRead_withCond (a : Word) (s : State) :
    memRead a (withCond c s) = mapResult (withCond c) (memRead a s) := by
  simp only [memRead, kbsrRefresh_withCond]
  split
  · cases kbsrRefresh s <;> rfl
  · rfl

theorem emitLow_withCond (w : Word) (s : State) :
    emitLow w (withCond c s) = mapResult (withCond c) (emitLow w s) := termWrite_withCond c _ s

theorem emitPacked_withCond (w : Word) (s : State) :
    emitPacked w (withCond c s) = mapResult (withCond c) (emitPacked w s) := by
  simp only [emitPacked, termWrite_withCond]
  cases termWrite (lowByte w) s with
  | stopped t => rfl
  | done x t =>
    simp only [mapResult, termWrite_withCond]
    split <;> rfl

end

/-! ### Ends that carry COND along or write over it -/

/-- Ending in `k` of the state, `s` with COND = `c` comes to the same state as `s`, or to the one that differs in COND,
untouched in both. -/
def BlindAt (c : Word) (k : State → State) (s : State) : Prop :=
  k (withCond c s) = k s ∨ (k (withCond c s) = withCond c (k s) ∧ (k s).cond = s.cond)

section
variable {c : Word} {s : State}

theorem writeResult_withCond (r : Reg) (v : Word) : writeResult r v (withCond c s) = writeResult r v s := by
  simp only [writeResult_eq, withCond]

/-- A write to anything but COND. -/
theorem BlindAt.of_comm {k : State → State} (h : k (withCond c s) = withCond c (k s)) (hcond : (k s).cond = s.cond) :
    BlindAt c k s := .inr ⟨h, hcond⟩

/-- `k` after the link write, which neither reads nor writes COND. -/
theorem BlindAt.afterLink {k : State → State} (h : BlindAt c k (link s)) : BlindAt c (fun t => k (link t)) s := h

/-- An operation that starts from the value of a register. -/
theorem BlindAt.ofReg {k : Word → State → State} (r : Reg) (h : ∀ a, BlindAt c (k a) s) :
    BlindAt c (fun t => k (t.reg r) t) s := h (s.reg r)

/-- `k` after a Terminal operation or a memory read. -/
theorem BlindAt.andThen {α : Type} {r : State → Result α} {k : α → State → State}
    (hr : r (withCond c s) = mapResult (withCond c) (r s)) (ht : (r s).Touching s)
    (hk : ∀ a t, BlindAt c (k a) t) : BlindAt c (fun t => (r t).andThen k) s := by
  unfold BlindAt
  simp only [hr]
  cases h : r s with
  | stopped t =>
    rw [h] at ht
    exact .inr ⟨rfl, ht.1.cond⟩
  | done a t =>
    rw [h] at ht
    show k a (withCond c t) = k a t ∨ (k a (withCond c t) = withCond c (k a t) ∧ (k a t).cond = s.cond)
    rw [← ht.1.cond]
    exact hk a t

/-- What follows a read of the Terminal, from what follows its byte. -/
theorem BlindAt.ofRead {r : State → ReadOutcome} {k : ReadOutcome → State}
    (hr : r (withCond c s) = mapRead (withCond c) (r s)) (ht : (r s).Touching s)
    (hbyte : ∀ b t, BlindAt c (fun u => k (.byte b u)) t)
    (hhold : ∀ t, BlindAt c (fun u => k (.hold u)) t)
    (hfailed : ∀ t, BlindAt c (fun u => k (.failed u)) t) : BlindAt c (fun t => k (r t)) s := by
  unfold BlindAt at *
  simp only [hr]
  cases h : r s with
  | byte b t => rw [h] at ht; rw [← ht.1.cond]; exact hbyte b t
  | hold t => rw [h] at ht; rw [← ht.1.cond]; exact hhold t
  | failed t => rw [h] at ht; rw [← show t.cond = s.cond from ht.cond]; exact hfailed t

theorem blindAt_getcAfter {r : State → ReadOutcome} (hr : r (withCond c s) = mapRead (withCond c) (r s))
    (ht : (r s).Touching s) : BlindAt c (fun t => getcAfter (r t)) s :=
  .ofRead hr ht (fun _ _ => .inl (writeResult_withCond _ _)) (fun _ => .of_comm rfl rfl) (fun _ => .of_comm rfl rfl)

theorem blindAt_inAfter {r : State → ReadOutcome} (hr : r (withCond c s) = mapRead (withCond c) (r s))
    (ht : (r s).Touching s) : BlindAt c (fun t => inAfter (r t)) s :=
  .ofRead hr ht
    (fun b t => .andThen (termWrite_withCond c b t) (termWrite_touching b t) fun _ _ => .inl (writeResult_withCond _ _))
    (fun _ => .of_comm rfl rfl) (fun _ => .of_comm rfl rfl)

theorem blindAt_stringWalk {emit : Word → State → Result Unit} (held : Word → Routine)
    (he : ∀ w t, emit w (withCond c t) = mapResult (withCond c) (emit w t)) (ht : ∀ w t, (emit w t).Touching t)
    (n : Nat) (a : Word) (s : State) : BlindAt c (stringWalk emit held n a) s := by
  induction n generalizing a s with
  | zero => exact .of_comm rfl rfl
  | succ k ih =>
    refine .andThen (memRead_withCond c a s) (memRead_touching a s) fun w t => ?_
    by_cases hw : w = 0x0000#16
    · simp only [hw, if_true]
      exact .of_comm rfl rfl
    · simp only [hw, if_false]
      exact .andThen (he w t) (ht w t) fun _ u => ih (a + 1) u

theorem blindAt_putsBody (a : Word) : BlindAt c (putsBody a) s :=
  blindAt_stringWalk .puts (emitLow_withCond c) emitLow_touching memoryWords a s

theorem blindAt_putspBody (a : Word) : BlindAt c (putspBody a) s :=
  blindAt_stringWalk .putsp (emitPacked_withCond c) emitPacked_touching memoryWords a s

end

/-- Form by form: what comes before the last write carries COND along, and COND is in no operand but BR's. -/
theorem blindAt_exec {i : Instr} (hbr : ∀ nzp off, i ≠ .br nzp off) (c : Word) (s : State) :
    ∃ k, (∀ t, exec i t = .next (k t)) ∧ BlindAt c k s := by
  cases i with
  | br nzp off => exact absurd rfl (hbr nzp off)
  | addReg | addImm | andReg | andImm | notReg | lea => exact ⟨_, fun _ => rfl, .inl (writeResult_withCond _ _)⟩
  | st | str | jmp | jsr | jsrr | trapUndefined | rti | res => exact ⟨_, fun _ => rfl, .of_comm rfl rfl⟩
  | ld | ldr =>
    exact ⟨_, fun _ => rfl, .andThen (memRead_withCond c _ s) (memRead_touching _ s) fun _ _ =>
      .inl (writeResult_withCond _ _)⟩
  | ldi =>
    exact ⟨_, fun _ => rfl, .andThen (memRead_withCond c _ s) (memRead_touching _ s) fun ea t =>
      .andThen (memRead_withCond c ea t) (memRead_touching ea t) fun _ _ => .inl (writeResult_withCond _ _)⟩
  | sti =>
    exact ⟨_, fun _ => rfl, .andThen (memRead_withCond c _ s) (memRead_touching _ s) fun _ _ => .of_comm rfl rfl⟩
  | trapGetc =>
    exact ⟨_, fun _ => rfl, (blindAt_getcAfter (termRead_withCond c (link s)) (termRead_touching _)).afterLink⟩
  | trapOut =>
    have h : BlindAt c (fun t => (termWrite (lowByte (t.reg .r0)) t).andThen fun _ u => u) (link s) :=
      .andThen (termWrite_withCond c _ _) (termWrite_touching _ _) fun _ _ => .of_comm rfl rfl
    exact ⟨_, fun _ => rfl, h.afterLink⟩
  | trapPuts => exact ⟨_, fun _ => rfl, (BlindAt.ofReg .r0 fun a => blindAt_putsBody a).afterLink⟩
  | trapIn =>
    have h : BlindAt c (fun t => (termWriteAll Config.inPrompt t).andThen fun _ u => inAfter (termRead u)) (link s) :=
      .andThen (termWriteAll_withCond c _ _) (termWriteAll_touching _ _) fun _ u =>
        blindAt_inAfter (termRead_withCond c u) (termRead_touching u)
    exact ⟨_, fun _ => rfl, h.afterLink⟩
  | trapPutsp => exact ⟨_, fun _ => rfl, (BlindAt.ofReg .r0 fun a => blindAt_putspBody a).afterLink⟩
  | trapHalt =>
    have h : BlindAt c (fun t => (termWriteAll Config.haltMarker t).andThen fun _ u => halt u) (link s) :=
      .andThen (termWriteAll_withCond c _ _) (termWriteAll_touching _ _) fun _ _ => .of_comm rfl rfl
    exact ⟨_, fun _ => rfl, h.afterLink⟩

/-- Settles O54: the two runs end in one operation `k` of the two states, and `k` is blind to COND. -/
theorem onlyBrReadsCond : Obligations.OnlyBrReadsCond := by
  intro i s t u c hbr ht hu
  obtain ⟨k, hk, hblind⟩ := blindAt_exec hbr c s
  cases ht.symm.trans (hk s)
  cases hu.symm.trans (hk (withCond c s))
  rcases hblind with hsame | ⟨hcomm, hcond⟩
  · rw [hsame]
    exact ⟨rfl, .inl rfl⟩
  · rw [hcomm]
    exact ⟨rfl, .inr ⟨rfl, hcond⟩⟩

end Sys2Proof.Proofs.CondIsReadByBr
end

section
/-! SUPPORT. The memory list as a whole: what a loader leaves in it (R36), and that its canonical form is one. -/

open Sys2Proof Sys2Proof.Machine Sys2Proof.Claims

namespace Sys2Proof.Proofs.CanonicalMemory

/-! ### The loaded memory (R36) -/

/-- The last of the writes to an address is the one a read gives. -/
theorem read_foldl_write (image : List (Word × Word)) (m : Memory) (a : Word) :
    (image.foldl (fun m c => m.write c.1 c.2) m).read a = (image.reverse.lookup a).getD (m.read a) := by
  induction image using List.reverseRecOn with
  | nil => rfl
  | append_singleton image c ih =>
    rw [List.foldl_concat, List.reverse_concat, List.lookup_cons, Memory.read_write, ih]
    by_cases ha : a = c.1
    · simp [ha]
    · simp [ha, beq_false_of_ne ha]

/-- Settles O1: the boot state is reset with the three arguments filled in. -/
theorem bootStateHasTheResetValues : Obligations.BootStateHasTheResetValues :=
  fun image _ _ => ⟨RegistersAndFlags.reset_regs_get, rfl, rfl, read_foldl_write image [], rfl, rfl, rfl⟩

/-! ### The canonical form -/

/-- A cell of a sorted list is what its address reads as. -/
theorem readAt_of_mem {m : Memory} (h : m.Pairwise fun c d => c.1 < d.1) {c : Nat × Word} (hc : c ∈ m) :
    m.readAt c.1 = c.2 := by
  induction m with
  | nil => cases hc
  | cons d rest ih =>
    obtain ⟨hhead, htail⟩ := List.pairwise_cons.1 h
    rcases List.mem_cons.1 hc with rfl | hrest
    · rw [Memory.readAt, if_pos rfl]
    · rw [Memory.readAt, if_neg (hhead c hrest).ne, ih htail hrest]

/-- A read that is not the unlisted word comes from a cell. -/
theorem mem_of_readAt {m : Memory} {c : Nat × Word} (h : m.readAt c.1 = c.2) (hv : c.2 ≠ Memory.unlisted) :
    c ∈ m := by
  induction m with
  | nil => exact absurd h.symm hv
  | cons d rest ih =>
    rw [Memory.readAt] at h
    split at h
    · next hkey => exact List.mem_cons.2 (.inl (Prod.ext hkey.symm h.symm))
    · exact List.mem_cons_of_mem d (ih h)

theorem subset_of_read_eq {m n : Memory} (hm : m.wf) (hread : ∀ a, m.read a = n.read a) : m ⊆ n := by
  intro c hc
  obtain ⟨hkey, hword⟩ := hm.2 c hc
  have hat : m.readAt c.1 = n.readAt c.1 := by
    have h := hread (BitVec.ofNat 16 c.1)
    rwa [Memory.read, Memory.read, BitVec.toNat_ofNat, Nat.mod_eq_of_lt (show c.1 < 2 ^ 16 from hkey)] at h
  exact mem_of_readAt (hat.symm.trans (readAt_of_mem hm.1 hc)) hword

/-- Settles O11: each list has the other's cells, and sorted lists with the same cells are equal. -/
theorem canonicalMemoriesThatReadAlikeAreEqual : Obligations.CanonicalMemoriesThatReadAlikeAreEqual := by
  intro m n hm hn hread
  have hirrefl : Std.Irrefl fun c d : Nat × Word => c.1 < d.1 := ⟨fun c => lt_irrefl c.1⟩
  have hantisymm : Std.Antisymm fun c d : Nat × Word => c.1 < d.1 := ⟨fun _ _ h k => absurd h k.asymm⟩
  exact List.Subset.antisymm_of_pairwise hm.1 hn.1 (subset_of_read_eq hm hread)
    (subset_of_read_eq hn fun a => (hread a).symm)

end Sys2Proof.Proofs.CanonicalMemory
end

section
/-! SUPPORT. The words of the statements in the model's own terms, and the host's moves one at a time. -/

open Sys2Proof Sys2Proof.Machine Sys2Proof.Claims

namespace Sys2Proof.Proofs.Vocabulary

theorem linked_eq (s : State) : linked s = link s := rfl

theorem faultedWith_eq (c : FatalCondition) (s : State) : faultedWith c s = raise c s := rfl

theorem wordOf_eq (b : Byte) : wordOf b = zext16 b := by
  apply BitVec.eq_of_toNat_eq
  simp [wordOf, zext16]

theorem low_eq (w : Word) : low w = lowByte w := by
  apply BitVec.eq_of_toNat_eq
  simp [low, lowByte]

theorem high_eq (w : Word) : high w = highByte w := by
  apply BitVec.eq_of_toNat_eq
  simp [high, highByte, Nat.shiftRight_eq_div_pow]

@[simp] theorem moveAt_zero (s : State) : moveAt s 0 = s.nextMove := by
  unfold moveAt State.nextMove
  cases s.host <;> rfl

@[simp] theorem moveAt_succ (s : State) (n : Nat) : moveAt s (n + 1) = moveAt s.takeMove n := by
  simp [moveAt, List.getElem?_tail]

@[simp] theorem afterMoves_zero (s : State) : afterMoves 0 s = s := by
  simp [afterMoves]

@[simp] theorem afterMoves_succ (n : Nat) (s : State) : afterMoves (n + 1) s = afterMoves n s.takeMove := by
  unfold afterMoves State.takeMove State.nextMove
  cases s.host <;> simp [HostMove.quiet]

theorem takeMove_eq_self {s : State} (h : s.host = []) : s.takeMove = s := by
  cases s
  simp only at h
  subst h
  simp [State.takeMove, State.nextMove, HostMove.quiet]

theorem nextMove_eq_quiet {s : State} (h : s.host = []) : s.nextMove = HostMove.quiet := by
  rw [State.nextMove, h, List.headD_nil]

end Sys2Proof.Proofs.Vocabulary
end

section
/-! SUPPORT. The family of 20_memory.md, the device: the reads of KBSR (R51 to R55). -/

open Sys2Proof Sys2Proof.Machine Sys2Proof.Claims Sys2Proof.Proofs.Vocabulary

namespace Sys2Proof.Proofs.Keyboard

/-- The memory after a read of KBSR that found the key `b`. -/
def keyMemory (b : Byte) (m : Memory) : Memory :=
  (m.write kbsrAddr kbsrReady).write kbdrAddr (zext16 b)

@[simp] theorem keyMemory_kbsr (b : Byte) (m : Memory) : (keyMemory b m).read kbsrAddr = kbsrReady := by
  rw [keyMemory, Memory.read_write_ne _ _ (by decide), Memory.read_write_same]

@[simp] theorem keyMemory_kbdr (b : Byte) (m : Memory) : (keyMemory b m).read kbdrAddr = zext16 b :=
  Memory.read_write_same _ _ _

theorem keyMemory_of_ne (b : Byte) (m : Memory) {a : Word} (hkbsr : a ≠ kbsrAddr) (hkbdr : a ≠ kbdrAddr) :
    (keyMemory b m).read a = m.read a := by
  rw [keyMemory, Memory.read_write_ne _ _ hkbdr, Memory.read_write_ne _ _ hkbsr]

section
variable {s : State}

theorem memRead_kbsr_of_no_key (hq : s.takeMove.inQ = []) :
    memRead kbsrAddr s = .done 0 (memWrite kbsrAddr 0 s.takeMove) := by
  rcases memRead_kbsr_cases s with ⟨-, h⟩ | ⟨hkey, -⟩ | ⟨b, q, -, -, hkey, -⟩
  · exact h
  · exact absurd hq hkey
  · exact absurd hq hkey

theorem memRead_kbsr_of_key {b : Byte} {q : List Byte} (hq : s.takeMove.inQ = b :: q)
    (hf : s.takeMove.nextMove.fails = false) :
    memRead kbsrAddr s = .done kbsrReady
      { s.takeMove.takeMove with mem := keyMemory b s.mem, inQ := q ++ s.takeMove.nextMove.arrive } := by
  rcases memRead_kbsr_cases s with ⟨hno, -⟩ | ⟨-, hfails, -⟩ | ⟨b', q', -, hhead, -, h⟩
  · cases hno.symm.trans hq
  · cases hf.symm.trans hfails
  · rw [State.takeMove_inQ, hq, List.cons_append] at hhead
    cases hhead
    exact h

/-- Where the host's script has ended, the key at the head of the input moves to KBDR and nothing arrives. -/
theorem memRead_kbsr_of_quiet {b : Byte} {q : List Byte} (hhost : s.host = []) (hq : s.inQ = b :: q) :
    memRead kbsrAddr s = .done kbsrReady { s with mem := keyMemory b s.mem, inQ := q } := by
  have hself := takeMove_eq_self hhost
  have hquiet := nextMove_eq_quiet hhost
  have h := memRead_kbsr_of_key (s := s) (b := b) (q := q) (by rw [hself, hq]) (by rw [hself, hquiet]; rfl)
  rw [h, hself, hself, hquiet, HostMove.quiet, List.append_nil]

theorem memRead_kbsr_of_failure (hkey : s.takeMove.inQ ≠ []) (hf : s.takeMove.nextMove.fails = true) :
    memRead kbsrAddr s = .stopped (raise .ioFailure s.takeMove.takeMove) := by
  rcases memRead_kbsr_cases s with ⟨hno, -⟩ | ⟨-, -, h⟩ | ⟨b, q, hok, -, -, -⟩
  · exact absurd hno hkey
  · exact h
  · cases hf.symm.trans hok

/-- A read that raises is one of KBSR, with a key pending and a read of it that fails (R52, R183). -/
theorem memRead_stopped {ea : Word} {t : State} (h : memRead ea s = .stopped t) :
    ea = 0xFE00#16 ∧ KbsrReadFails s ∧ t = faultedWith .ioFailure (afterMoves 2 s) := by
  by_cases hea : ea = kbsrAddr
  · subst hea
    rcases memRead_kbsr_cases s with ⟨-, hdone⟩ | ⟨hkey, hf, hstopped⟩ | ⟨b, q, -, -, -, hdone⟩
    · cases h.symm.trans hdone
    · cases h.symm.trans hstopped
      exact ⟨rfl, ⟨by simpa using hkey, by simpa using hf⟩, by simp [faultedWith_eq]⟩
    · cases h.symm.trans hdone
  · cases h.symm.trans (memRead_of_ne hea s)

end

/-- Settles O8: the three ends of a read of KBSR, by the poll and the draw. -/
theorem kbsrReadPollsTheTerminal : Obligations.KbsrReadPollsTheTerminal := by
  intro s
  simp only [afterMoves_succ, afterMoves_zero, moveAt_succ, moveAt_zero, wordOf_eq]
  refine ⟨fun hq => ?_, fun b q hq hf => ?_, memRead_kbsr_of_failure⟩
  · exact ⟨_, memRead_kbsr_of_no_key hq, s.mem.read_write_same kbsrAddr 0, fun a ha => s.mem.read_write_ne 0 ha, rfl⟩
  · exact ⟨_, memRead_kbsr_of_key hq hf, keyMemory_kbsr b s.mem, keyMemory_kbdr b s.mem,
      fun a hkbsr hkbdr => keyMemory_of_ne b s.mem hkbsr hkbdr, rfl⟩

/-- A read of KBSR that completes gives one of two words, and that word is then stored there. -/
theorem memRead_kbsr_done {s t : State} {w : Word} (h : memRead kbsrAddr s = .done w t) :
    (w = 0x0000#16 ∨ w = 0x8000#16) ∧ t.mem.read kbsrAddr = w := by
  rcases memRead_kbsr_cases s with ⟨-, hdone⟩ | ⟨-, -, hstopped⟩ | ⟨b, q, -, -, -, hdone⟩
  · cases h.symm.trans hdone
    exact ⟨.inl rfl, s.mem.read_write_same kbsrAddr 0⟩
  · cases h.symm.trans hstopped
  · cases h.symm.trans hdone
    exact ⟨.inr rfl, keyMemory_kbsr b _⟩

/-- Settles O9: what a completed read of KBSR gives does not depend on what was stored, and without a key KBDR is not
written. -/
theorem storedKbsrValueIsNeverReadBack : Obligations.StoredKbsrValueIsNeverReadBack := by
  have hkbdr (t : State) : memRead 0xFE02#16 t = .done (t.mem.read 0xFE02#16) t := memRead_of_ne (by decide) t
  refine fun s v => ⟨fun w t h => memRead_kbsr_done h, ?_, fun w t hq h => ?_⟩
  · rw [hkbdr, memWrite_mem, Memory.read_write_same]
  · rw [afterMoves_succ, afterMoves_zero] at hq
    cases h.symm.trans (memRead_kbsr_of_no_key (s := memWrite 0xFE02#16 v s) hq)
    rw [hkbdr, memWrite_mem, Memory.read_write_ne _ _ (by decide), State.takeMove_mem, memWrite_mem,
      Memory.read_write_same]

end Sys2Proof.Proofs.Keyboard
end

section
/-! SUPPORT. The family of 41_operate.md: NOT (R125). -/

open Sys2Proof Sys2Proof.Machine Sys2Proof.Claims

namespace Sys2Proof.Proofs.Operate

theorem exec_notReg (dr sr : Reg) (s : State) :
    exec (.notReg dr sr) s = .next (withResult s dr (~~~(s.reg sr))) :=
  congrArg Host.Outcome.next (writeResult_eq_withResult dr _ s)

/-- The complement of a word, by the arithmetic of R125. -/
theorem not_eq_ofNat (v : Word) : ~~~v = BitVec.ofNat 16 (65535 - v.toNat) := by
  apply BitVec.eq_of_toNat_eq
  rw [BitVec.toNat_not, BitVec.toNat_ofNat, Nat.mod_eq_of_lt (by omega)]

/-- Settles O28: the decoder looks at DR and SR alone. -/
theorem notForm : Obligations.NotForm := by
  refine fun dr sr => ⟨fun w hop hdr hsr => ?_, fun s => ?_⟩
  · rw [decode_not hop, regField11_of_names hdr, regField8_of_names hsr]
  · rw [exec_notReg, not_eq_ofNat]

end Sys2Proof.Proofs.Operate
end

section
/-! SUPPORT. The family of 42_data_movement.md: the loads and the stores (R131 to R133, R135 to R137). -/

open Sys2Proof Sys2Proof.Machine Sys2Proof.Claims Sys2Proof.Proofs.Operate

namespace Sys2Proof.Proofs.DataMovement

/-- The base-plus-offset address in R9's own extension. -/
theorem basePlusOffset_eq_signExtend (base : Reg) (off : BitVec 6) (s : State) :
    basePlusOffset base off s = s.reg base + signExtend off := by
  rw [basePlusOffset, Scope.sext_eq_signExtend (by decide)]

/-! ### What the forms do -/

/-- The end of a load: `MemRead`, then DR and its flags. -/
def load (dr : Reg) (ea : Word) (s : State) : State := (memRead ea s).andThen fun w t => writeResult dr w t

section
variable (r base : Reg) (off9 : BitVec 9) (off6 : BitVec 6) (s : State)

theorem exec_ld : exec (.ld r off9) s = .next (load r (s.pc + signExtend off9) s) := by
  rw [← pcRelative9_eq_signExtend]
  rfl

theorem exec_ldr : exec (.ldr r base off6) s = .next (load r (s.reg base + signExtend off6) s) := by
  rw [← basePlusOffset_eq_signExtend]
  rfl

theorem exec_ldi : exec (.ldi r off9) s =
    .next ((memRead (s.pc + signExtend off9) s).andThen fun ea t => load r ea t) := by
  rw [← pcRelative9_eq_signExtend]
  rfl

theorem exec_st : exec (.st r off9) s = .next (memWrite (s.pc + signExtend off9) (s.reg r) s) := by
  rw [← pcRelative9_eq_signExtend]
  rfl

theorem exec_str : exec (.str r base off6) s = .next (memWrite (s.reg base + signExtend off6) (s.reg r) s) := by
  rw [← basePlusOffset_eq_signExtend]
  rfl

theorem exec_sti : exec (.sti r off9) s =
    .next ((memRead (s.pc + signExtend off9) s).andThen fun ea t => memWrite ea (t.reg r) t) := by
  rw [← pcRelative9_eq_signExtend]
  rfl

end

/-- A load is what the statements say of one, at every address. -/
theorem loads_load (dr : Reg) (ea : Word) (s : State) : Loads (.next (load dr ea s)) s ea dr := by
  have hdone (w : Word) (t : State) (h : memRead ea s = .done w t) :
      Host.Outcome.next (load dr ea s) = (.next (withResult t dr w) : Host.Outcome State Fault Refusal) := by
    rw [load, h, Result.andThen_done, writeResult_eq_withResult]
  refine ⟨fun hea => hdone _ _ (memRead_of_ne hea s), hdone, fun t h => ⟨?_, Keyboard.memRead_stopped h⟩⟩
  rw [load, h, Result.andThen_stopped]

theorem stores_memWrite (ea v : Word) (s : State) : Stores (.next (memWrite ea v s)) s ea v :=
  ⟨_, rfl, MemoryAccess.writeStoresOneWordAndNothingElse s ea v⟩

/-- A memory read within `Touches` leaves the registers. -/
theorem reg_of_memRead {a w : Word} {s t : State} (h : memRead a s = .done w t) (r : Reg) : t.reg r = s.reg r := by
  have ht := memRead_touching a s
  rw [h] at ht
  rw [State.reg_eq, ht.1.regs, State.reg_eq]

/-! ### The statements -/

/-- Settles O29: LD is a load from the sum of the PC and the offset. -/
theorem ldForm : Obligations.LdForm := by
  refine fun dr off => ⟨fun w hop hdr hoff => ?_, fun s => ?_⟩
  · rw [decode_ld hop, regField11_of_names hdr, pcOffset9Field, hoff]
  · rw [exec_ld]
    exact loads_load dr _ s

/-- Settles O31: LDR is a load from BaseR plus the offset, and the address is taken before DR is written. -/
theorem ldrForm : Obligations.LdrForm := by
  refine fun dr base off => ⟨fun w hop hdr hbase hoff => ?_, fun s => ?_⟩
  · rw [decode_ldr hop, regField11_of_names hdr, regField8_of_names hbase, offset6Field, hoff]
  · rw [exec_ldr]
    exact loads_load dr _ s

/-- Settles O30: once the pointer is read, LDI is a load from it. -/
theorem ldiForm : Obligations.LdiForm := by
  refine fun dr off => ⟨fun w hop hdr hoff => ?_, fun s => ?_⟩
  · rw [decode_ldi hop, regField11_of_names hdr, pcOffset9Field, hoff]
  · have hdone (ea : Word) (t : State) (h : memRead (s.pc + signExtend off) s = .done ea t) :
        Loads (exec (.ldi dr off) s) t ea dr := by
      rw [exec_ldi, h, Result.andThen_done]
      exact loads_load dr ea t
    refine ⟨fun hea => hdone _ _ (memRead_of_ne hea s), hdone, fun t h => ⟨?_, Keyboard.memRead_stopped h⟩⟩
    rw [exec_ldi, h, Result.andThen_stopped]

/-- Settles O33: ST is one `memWrite`. -/
theorem stForm : Obligations.StForm := by
  refine fun sr off => ⟨fun w hop hsr hoff => ?_, fun s => ?_⟩
  · rw [decode_st hop, regField11_of_names hsr, pcOffset9Field, hoff]
  · rw [exec_st]
    exact stores_memWrite _ _ s

/-- Settles O35: STR is one `memWrite`, with the address taken from the registers as they are. -/
theorem strForm : Obligations.StrForm := by
  refine fun sr base off => ⟨fun w hop hsr hbase hoff => ?_, fun s => ?_⟩
  · rw [decode_str hop, regField11_of_names hsr, regField8_of_names hbase, offset6Field, hoff]
  · rw [exec_str]
    exact stores_memWrite _ _ s

/-- Settles O34: once the pointer is read, STI is a store at it, and the read leaves SR. -/
theorem stiForm : Obligations.StiForm := by
  refine fun sr off => ⟨fun w hop hsr hoff => ?_, fun s => ?_⟩
  · rw [decode_sti hop, regField11_of_names hsr, pcOffset9Field, hoff]
  · have hdone (ea : Word) (t : State) (h : memRead (s.pc + signExtend off) s = .done ea t) :
        Stores (exec (.sti sr off) s) t ea (s.reg sr) := by
      rw [exec_sti, h, Result.andThen_done, reg_of_memRead h]
      exact stores_memWrite ea _ t
    refine ⟨fun hea => hdone _ _ (memRead_of_ne hea s), hdone, fun t h => ⟨?_, Keyboard.memRead_stopped h⟩⟩
    rw [exec_sti, h, Result.andThen_stopped]

end Sys2Proof.Proofs.DataMovement
end

section
/-! SUPPORT. The family of 43_control.md: BR, JMP, JSRR (R146, R147, R149). -/

open Sys2Proof Sys2Proof.Machine Sys2Proof.Claims Sys2Proof.Proofs.Operate

namespace Sys2Proof.Proofs.Control

/-- A 3-bit value is non-zero exactly when one of its bits is set. -/
theorem bne_zero_eq_bits (x : BitVec 3) : (x != 0#3) = (x.getLsbD 2 || x.getLsbD 1 || x.getLsbD 0) := by
  revert x; decide

/-- The test of BR flag by flag (R146). -/
theorem branchTaken_eq (nzp : BitVec 3) (s : State) :
    branchTaken nzp s = ((nzp.getLsbD 2 && s.cond.getLsbD 2) || (nzp.getLsbD 1 && s.cond.getLsbD 1) ||
      (nzp.getLsbD 0 && s.cond.getLsbD 0)) := by
  simp only [branchTaken, bne_zero_eq_bits, BitVec.getLsbD_and, BitVec.getLsbD_extractLsb']
  rfl

theorem exec_br (nzp : BitVec 3) (off : BitVec 9) (s : State) :
    exec (.br nzp off) s = .next (if branchTaken nzp s then { s with pc := s.pc + signExtend off } else s) := by
  rw [← DataMovement.pcRelative9_eq_signExtend]
  rfl

/-- Settles O36: the masked field is non-zero exactly when a selected flag is set. -/
theorem brForm : Obligations.BrForm := by
  refine fun nzp off => ⟨fun w hop hnzp hoff => ?_, fun s => ?_⟩
  · rw [decode_br hop, condBitsField, hnzp, pcOffset9Field, hoff]
  · rw [exec_br, branchTaken_eq]

/-- Settles O37: the decoder looks at BaseR alone. -/
theorem jmpForm : Obligations.JmpForm := by
  refine fun base => ⟨fun w hop hbase => ?_, fun s => rfl⟩
  rw [decode_jmp hop, regField8_of_names hbase]

/-- Settles O39: BaseR is read after the link, so it is the new R7 where it is R7 and the old register elsewhere. -/
theorem jsrrForm : Obligations.JsrrForm := by
  refine fun base => ⟨fun w hop hlong hbase => ?_, fun s => ?_⟩
  · rw [Encoding.decode_jsrr_of_longFlag hop hlong, regField8_of_names hbase]
  · have htarget : (link s).reg base = if base = .r7 then s.pc else s.reg base := by
      rw [State.reg_eq, link_regs, RegFile.get_set, State.reg_eq]
    rw [← htarget]
    rfl

end Sys2Proof.Proofs.Control
end

section
/-! SUPPORT. The family of 40_instruction_cycle.md: stopped engines, placed and stored words, and the fetch at KBSR
(R89, R65, R111, R113). -/

open Sys2Proof Sys2Proof.Machine Sys2Proof.Claims Sys2Proof.Proofs.Vocabulary Sys2Proof.Proofs.Keyboard

namespace Sys2Proof.Proofs.InstructionCycle

/-- A fetch read that raises is the whole step (R111). -/
theorem step_of_memRead_stopped {s t : State} (hrun : s.run = .running) (hroutine : s.routine = none)
    (hread : memRead s.pc s = .stopped t) : step s = .next t := by
  rcases step_cases hrun with ⟨r, hheld, -⟩ | ⟨w', t', -, hdone, -⟩ | ⟨t', -, hstopped, -, -, hstep⟩
  · cases hroutine.symm.trans hheld
  · cases hread.symm.trans hdone
  · cases hread.symm.trans hstopped
    exact hstep

/-- Away from KBSR the step runs the stored word. -/
theorem step_of_read {s : State} {w : Word} (hrun : s.run = .running) (hroutine : s.routine = none)
    (hpc : s.pc ≠ kbsrAddr) (hw : s.mem.read s.pc = w) : step s = exec (decode w) (s.setPc (s.pc + 1)) := by
  subst hw
  exact step_of_memRead_done hrun hroutine (memRead_of_ne hpc s)

/-- Settles O19: `step` looks at the run state first. -/
theorem stoppedEngineHasNoStep : Obligations.StoppedEngineHasNoStep :=
  fun s => ⟨fun h => by simp only [step, h], fun c h => by simp only [step, h]⟩

/-- The PC of a placed word is never KBSR's address. -/
theorem withFetchWord_pc_ne (s : State) (nbits n : Nat) : (s.withFetchWord nbits n).pc ≠ kbsrAddr := by
  show (if s.pc = kbsrAddr then pcStart else s.pc) ≠ kbsrAddr
  split
  · decide
  · assumption

/-- Settles O18: the placed word stands at the PC, which is not KBSR. -/
theorem placedWordRunsNext : Obligations.PlacedWordRunsNext := by
  intro s n
  refine step_of_read rfl rfl (withFetchWord_pc_ne s 16 n) ?_
  rw [← Encoding.tableWord_eq]
  exact s.mem.read_write_same _ _

/-! ### Words that only advance the PC (R89) -/

theorem exec_br_none (off : BitVec 9) (s : State) : exec (.br 0#3 off) s = .next s := by
  rw [Control.exec_br, Control.branchTaken_eq]
  simp

/-- A word below 0x200 is a BR without condition bits. -/
theorem decode_of_toNat_lt {w : Word} (h : w.toNat < 0x200) : decode w = .br 0#3 (pcOffset9Field w) := by
  have hzero (k l : Nat) (hk : 9 ≤ k) : w.extractLsb' k l = 0 := by
    apply BitVec.eq_of_toNat_eq
    have hdiv : w.toNat / 2 ^ k = 0 := Nat.div_eq_of_lt (h.trans_le (Nat.pow_le_pow_right (n := 2) (by decide) hk))
    simp [Nat.shiftRight_eq_div_pow, hdiv]
  rw [decode_br (hzero 12 4 (by decide)), condBitsField, hzero 9 3 (by decide)]
  rfl

/-- Settles O22: without condition bits no flag is selected, with all three every flag is. -/
theorem zeroWordOnlyAdvancesThePc : Obligations.ZeroWordOnlyAdvancesThePc := by
  refine ⟨fun s hrun hroutine hpc hw => ?_, fun s off hcond => ?_⟩
  · rw [step_of_read hrun hroutine hpc rfl, decode_of_toNat_lt hw, exec_br_none, add_one_eq_ofNat, State.setPc]
  · have htaken : branchTaken 0b111#3 s = true := by
      rw [Control.branchTaken_eq]
      rcases hcond with h | h | h <;> rw [h] <;> rfl
    rw [Control.exec_br, if_pos htaken]

/-! ### A store and the next fetch (R65) -/

/-- After a store at the PC the next step runs the stored word. -/
theorem step_memWrite_pc {s : State} (v : Word) (hrun : s.run = .running) (hroutine : s.routine = none)
    (hpc : s.pc ≠ kbsrAddr) :
    step (memWrite s.pc v s) = exec (decode v) { memWrite s.pc v s with pc := BitVec.ofNat 16 (s.pc.toNat + 1) } := by
  rw [← add_one_eq_ofNat]
  exact step_of_read (s := memWrite s.pc v s) hrun hroutine hpc (s.mem.read_write_same s.pc v)

/-- The three stores end in one `memWrite` at their address, in a state with the run state, the routine and the PC of
before. -/
theorem exec_of_storesAt {i : Instr} {sr : Reg} {s : State} {ea : Word} (h : StoresAt i sr s ea) :
    ∃ t, exec i s = .next (memWrite ea (s.reg sr) t) ∧ t.run = s.run ∧ t.routine = s.routine ∧ t.pc = s.pc := by
  rcases h with ⟨off, rfl, rfl⟩ | ⟨base, off, rfl, rfl⟩ | ⟨off, t, rfl, hread⟩
  · exact ⟨s, DataMovement.exec_st sr off s, rfl, rfl, rfl⟩
  · exact ⟨s, DataMovement.exec_str sr base off s, rfl, rfl, rfl⟩
  · have ht := memRead_touching (s.pc + signExtend off) s
    rw [hread] at ht
    refine ⟨t, ?_, ht.2, ht.1.routine, ht.1.pc⟩
    rw [DataMovement.exec_sti, hread, Result.andThen_done, DataMovement.reg_of_memRead hread]

/-- Settles O23: every store is a `memWrite` at its address, and what a `memWrite` leaves at the PC is fetched next. -/
theorem storeIsSeenByTheVeryNextFetch : Obligations.StoreIsSeenByTheVeryNextFetch := by
  refine fun s hrun hroutine hpc => ⟨fun v => step_memWrite_pc v hrun hroutine hpc, fun i sr hstore => ?_⟩
  obtain ⟨t, hexec, htrun, htroutine, htpc⟩ := exec_of_storesAt hstore
  rw [← htpc] at hexec hpc ⊢
  exact ⟨_, hexec, rfl, step_memWrite_pc _ (htrun.trans hrun) (htroutine.trans hroutine) hpc⟩

/-! ### The fetch at KBSR (R111) -/

/-- Settles O17: the two words that a read of KBSR can give are a BR without condition bits and an RTI. -/
theorem fetchAtKbsrPollsTheKeyboard : Obligations.FetchAtKbsrPollsTheKeyboard := by
  intro s hrun hroutine hpc
  simp only [afterMoves_succ, afterMoves_zero, moveAt_succ, moveAt_zero, wordOf_eq]
  have hread {r : Result Word} (h : memRead kbsrAddr s = r) : memRead s.pc s = r := hpc ▸ h
  refine ⟨fun hq => ?_, fun b q hq hf => ?_, fun hkey hf => ?_⟩
  · have hstep := step_of_memRead_done hrun hroutine (hread (memRead_kbsr_of_no_key hq))
    rw [hpc, decode_of_toNat_lt (by decide), exec_br_none] at hstep
    exact ⟨_, hstep, s.mem.read_write_same kbsrAddr 0, fun a ha => s.mem.read_write_ne 0 ha, rfl⟩
  · have hstep := step_of_memRead_done hrun hroutine (hread (memRead_kbsr_of_key hq hf))
    rw [hpc] at hstep
    exact ⟨_, hstep, keyMemory_kbsr b s.mem, keyMemory_kbdr b s.mem,
      fun a hkbsr hkbdr => keyMemory_of_ne b s.mem hkbsr hkbdr, rfl⟩
  · exact step_of_memRead_stopped hrun hroutine (hread (memRead_kbsr_of_failure hkey hf))

end Sys2Proof.Proofs.InstructionCycle
end

section
/-! SUPPORT. The family of 44_trap_system.md: the byte loop of the Terminal writes, the reads of GETC and IN, TRAP's
vectors, and the routines that walk no string (R155 to R157, R159, R161 to R164). -/

open Sys2Proof Sys2Proof.Machine Sys2Proof.Claims Sys2Proof.Proofs.Vocabulary Sys2Proof.Proofs.Operate

namespace Sys2Proof.Proofs.TrapSystem

/-! ### Writing bytes (R15) -/

section
variable {s : State}

theorem termWrite_of_ok (b : Byte) (h : s.nextMove.fails = false) :
    termWrite b s = .done () { s.takeMove with out := s.out ++ [b] } := by
  simp [termWrite, h]

theorem termWrite_of_failure (b : Byte) (h : s.nextMove.fails = true) :
    termWrite b s = .stopped (raise .ioFailure s.takeMove) := by
  simp [termWrite, h]

/-- The first of the operations succeeds, and so do the others after it. -/
theorem noFailure_succ {n : Nat} : NoFailure (n + 1) s ↔ s.nextMove.fails = false ∧ NoFailure n s.takeMove := by
  constructor
  · intro h
    refine ⟨by simpa using h 0 n.succ_pos, fun k hk => ?_⟩
    simpa using h (k + 1) (Nat.succ_lt_succ hk)
  · rintro ⟨hfirst, hrest⟩ k hk
    cases k with
    | zero => simpa using hfirst
    | succ k => simpa using hrest k (Nat.lt_of_succ_lt_succ hk)

/-- Without a failure every byte is written. -/
theorem termWriteEach_of_noFailure {bs : List Byte} (h : NoFailure bs.length s) :
    termWriteEach bs s = .done () { afterMoves bs.length s with out := s.out ++ bs } := by
  induction bs generalizing s with
  | nil => simp [termWriteEach]
  | cons b rest ih =>
    obtain ⟨hfirst, hrest⟩ := noFailure_succ.1 h
    have hwritten := ih (s := { s.takeMove with out := s.out ++ [b] }) hrest
    simp only [termWriteEach, termWrite_of_ok b hfirst, hwritten, List.append_assoc, List.singleton_append]
    rw [List.length_cons, afterMoves_succ rest.length s]
    rfl

/-- The first failing write ends the loop with the bytes before it written. -/
theorem termWriteEach_of_failure {bs : List Byte} {n : Nat} (hn : n < bs.length) (h : NoFailure n s)
    (hf : (moveAt s n).fails = true) :
    termWriteEach bs s = .stopped (faultedWith .ioFailure { afterMoves (n + 1) s with out := s.out ++ bs.take n }) := by
  induction bs generalizing s n with
  | nil => exact absurd hn n.not_lt_zero
  | cons b rest ih =>
    cases n with
    | zero =>
      rw [moveAt_zero] at hf
      simp only [termWriteEach, termWrite_of_failure b hf, List.take_zero, List.append_nil, afterMoves_succ,
        afterMoves_zero]
      rfl
    | succ n =>
      obtain ⟨hfirst, hrest⟩ := noFailure_succ.1 h
      have hstopped := ih (s := { s.takeMove with out := s.out ++ [b] }) (Nat.lt_of_succ_lt_succ hn) hrest
        (by rw [moveAt_succ] at hf; exact hf)
      simp only [termWriteEach, termWrite_of_ok b hfirst, hstopped, List.append_assoc, List.singleton_append]
      rw [List.take_succ_cons, afterMoves_succ (n + 1) s]
      rfl

end

/-- The byte loop and `k` after it are what the statements say of writing. -/
theorem writesThen_termWriteEach (bs : List Byte) (s : State) (k : State → State) :
    WritesThen bs s k (.next ((termWriteEach bs s).andThen fun _ t => k t)) := by
  refine ⟨fun h => ?_, fun n hn h hf => ?_⟩
  · rw [termWriteEach_of_noFailure h, Result.andThen_done]
  · rw [termWriteEach_of_failure hn h hf, Result.andThen_stopped]

theorem termWriteEach_singleton (b : Byte) (s : State) : termWriteEach [b] s = termWrite b s := by
  simp only [termWriteEach]
  cases termWrite b s <;> rfl

/-! ### GETC and IN from their read on (R156, R159) -/

section
variable {s : State}

theorem termAwait_of_byte {b : Byte} {q : List Byte} (hq : s.takeMove.inQ = b :: q) :
    termAwait s = .byte b { s.takeMove with inQ := q } := by
  rw [termAwait, hq]

theorem termAwait_of_empty (hq : s.takeMove.inQ = []) : termAwait s = .hold s.takeMove := by
  rw [termAwait, hq]

theorem termRead_of_ok (hf : s.nextMove.fails = false) : termRead s = termAwait s := by
  simp [termRead, hf]

theorem termRead_of_failure (hf : s.nextMove.fails = true) : termRead s = .failed s.takeMove := by
  simp [termRead, hf]

end

theorem getcAfter_byte (b : Byte) (t : State) : getcAfter (.byte b t) = withResult t .r0 (wordOf b) := by
  rw [wordOf_eq]
  exact writeResult_eq_withResult .r0 (zext16 b) t

/-- IN writes the byte it has read as any byte is written, and then stores it. -/
theorem writesThen_inAfter_byte (b : Byte) (t : State) :
    WritesThen [b] t (fun u => withResult u .r0 (wordOf b)) (.next (inAfter (.byte b t))) := by
  have h := writesThen_termWriteEach [b] t fun u => withResult u .r0 (wordOf b)
  simp only [termWriteEach_singleton, wordOf_eq, ← writeResult_eq_withResult] at h ⊢
  exact h

theorem getcReads_termRead (s : State) : GetcReads s (.next (getcAfter (termRead s))) := by
  simp only [GetcReads, moveAt_zero, afterMoves_succ, afterMoves_zero]
  refine ⟨fun hf => ?_, fun b q hf hq => ?_, fun hf hq => ?_⟩
  · rw [termRead_of_failure hf]
    rfl
  · rw [termRead_of_ok hf, termAwait_of_byte hq, getcAfter_byte]
  · rw [termRead_of_ok hf, termAwait_of_empty hq]
    rfl

theorem inReads_termRead (s : State) : InReads s (.next (inAfter (termRead s))) := by
  simp only [InReads, moveAt_zero, afterMoves_succ, afterMoves_zero]
  refine ⟨fun hf => ?_, fun b q hf hq => ?_, fun hf hq => ?_⟩
  · rw [termRead_of_failure hf]
    rfl
  · rw [termRead_of_ok hf, termAwait_of_byte hq]
    exact writesThen_inAfter_byte b _
  · rw [termRead_of_ok hf, termAwait_of_empty hq]
    rfl

/-! ### The vectors (R155, R162) -/

theorem decode_of_vector {w : Word} {v : BitVec 8} (hop : opcodeField w = 15#4) (hv : w.extractLsb' 0 8 = v) :
    decode w = decodeTrap v := by
  rw [decode_trap hop, trapVectorField, hv]

/-- Settles O48: a vector outside the range is none of the six, and the routine is the link and the raise. -/
theorem undefinedVectorForm : Obligations.UndefinedVectorForm := by
  refine fun v => ⟨fun w hop hv hrange => ?_, fun s => rfl⟩
  have hundefined : definedVector v = false := by
    simp only [definedVector, Bool.and_eq_false_iff, decide_eq_false_iff_not]
    omega
  rw [decode_of_vector hop hv, Encoding.decodeTrap_of_not_defined hundefined]

/-- Settles O49: each is one raise, and the decoder looks at the opcode alone. -/
theorem rtiAndResForms : Obligations.RtiAndResForms :=
  ⟨fun _ hop => decode_rti hop, fun _ hop => decode_res hop, fun _ => rfl, fun _ => rfl⟩

/-! ### The routines that walk no string -/

/-- Settles O40: GETC is its read after the link. -/
theorem getcForm : Obligations.GetcForm :=
  ⟨fun _ hop hv => decode_of_vector hop hv, fun s => getcReads_termRead (link s)⟩

/-- Settles O41: OUT is a loop of one byte after the link, which leaves R0. -/
theorem outForm : Obligations.OutForm := by
  refine ⟨fun _ hop hv => decode_of_vector hop hv, fun s => ?_⟩
  have h := writesThen_termWriteEach [low (s.reg .r0)] (link s) id
  rw [termWriteEach_singleton, low_eq] at h
  rw [low_eq]
  exact h

theorem exec_trapIn (s : State) : exec .trapIn s =
    .next ((termWriteEach Config.inPrompt (link s)).andThen fun _ t => inAfter (termRead t)) := by
  rw [← termWriteAll_eq]
  rfl

theorem exec_trapHalt (s : State) : exec .trapHalt s =
    .next ((termWriteEach Config.haltMarker (link s)).andThen fun _ t => halt t) := by
  rw [← termWriteAll_eq]
  rfl

/-- Settles O44: the prompt is a byte loop, and where it completes the read begins in the state it leaves. -/
theorem inForm : Obligations.InForm := by
  refine ⟨fun _ hop hv => decode_of_vector hop hv, fun s => ⟨fun h => ?_, fun n hn h hf => ?_⟩⟩
  · rw [exec_trapIn, termWriteEach_of_noFailure (s := link s) h, Result.andThen_done]
    exact inReads_termRead _
  · rw [exec_trapIn, termWriteEach_of_failure (s := link s) hn h hf, Result.andThen_stopped]
    rfl

/-- Settles O47: the marker is a byte loop, and `halt` follows it. -/
theorem haltForm : Obligations.HaltForm := by
  refine ⟨fun _ hop hv => decode_of_vector hop hv, fun s => ?_⟩
  rw [exec_trapHalt]
  exact writesThen_termWriteEach Config.haltMarker (link s) halt

/-- Settles O10: each read of KBSR takes the head of the input, and GETC takes the head that the first one left. -/
theorem kbsrReadConsumesTheKey : Obligations.KbsrReadConsumesTheKey := by
  intro s b c q hhost hq
  let t : State := { s with mem := Keyboard.keyMemory b s.mem, inQ := c :: q }
  have hfirst : memRead kbsrAddr s = .done kbsrReady t := Keyboard.memRead_kbsr_of_quiet hhost hq
  have hsecond := Keyboard.memRead_kbsr_of_quiet (s := t) hhost rfl
  refine ⟨t, _, hfirst, rfl, ?_, hsecond, rfl, ?_, ?_⟩
  · rw [wordOf_eq]
    exact Keyboard.keyMemory_kbdr b s.mem
  · rw [wordOf_eq]
    exact Keyboard.keyMemory_kbdr c t.mem
  · have hself : afterMoves 1 (linked t) = linked t := by
      rw [afterMoves_succ, afterMoves_zero, takeMove_eq_self (s := linked t) hhost]
    have hok : (moveAt (linked t) 0).fails = false := by
      rw [moveAt_zero, nextMove_eq_quiet (s := linked t) hhost]
      rfl
    have hgetc := (getcForm.2 t).2.1 c q hok (by rw [hself]; rfl)
    rwa [hself] at hgetc

/-! ### Held reads (R114) -/

section
variable {s : State} {x : Routine}

theorem step_of_held (hrun : s.run = .running) (hx : s.routine = some x) : step s = .next (resume x s) := by
  simp only [step, hrun, hx]

/-- A state held in `x` is `x` put back into the one a resumed routine starts from. -/
theorem routine_put_back (hx : s.routine = some x) :
    { ({ s with routine := none } : State).takeMove with routine := some x } = s.takeMove := by
  rw [← hx]
  rfl

theorem getcWaits_resume (hx : s.routine = some .getc) : GetcWaits s (.next (resume .getc s)) := by
  simp only [GetcWaits, resume, afterMoves_succ, afterMoves_zero]
  refine ⟨fun b q hq => ?_, fun hq => ?_⟩
  · rw [termAwait_of_byte (s := { s with routine := none }) hq, getcAfter_byte]
    rfl
  · rw [termAwait_of_empty (s := { s with routine := none }) hq]
    exact congrArg _ (routine_put_back hx)

theorem inWaits_resume (hx : s.routine = some .inn) : InWaits s (.next (resume .inn s)) := by
  simp only [InWaits, resume, afterMoves_succ, afterMoves_zero]
  refine ⟨fun b q hq => ?_, fun hq => ?_⟩
  · rw [termAwait_of_byte (s := { s with routine := none }) hq]
    exact writesThen_inAfter_byte b _
  · rw [termAwait_of_empty (s := { s with routine := none }) hq]
    exact congrArg _ (routine_put_back hx)

end

/-- Settles O20: the resumed read draws no failure, and with nothing pending the engine is held again as it was. -/
theorem heldReadGoesOnWhenAByteIsThere : Obligations.HeldReadGoesOnWhenAByteIsThere := by
  intro s hrun
  have hgetc (hx : s.routine = some .getc) : GetcWaits s (step s) := step_of_held hrun hx ▸ getcWaits_resume hx
  have hinn (hx : s.routine = some .inn) : InWaits s (step s) := step_of_held hrun hx ▸ inWaits_resume hx
  refine ⟨hgetc, hinn, fun hx hq hhost => ?_⟩
  have hself : afterMoves 1 s = s := by
    rw [afterMoves_succ, afterMoves_zero, takeMove_eq_self hhost]
  rcases hx with hx | hx
  · have hstep := (hgetc hx).2 (by rw [hself, hq])
    rwa [hself] at hstep
  · have hstep := (hinn hx).2 (by rw [hself, hq])
    rwa [hself] at hstep

end Sys2Proof.Proofs.TrapSystem
end

section
/-! SUPPORT. The family of 44_trap_system.md, the string routines: `stringWalk` is the loop of R158 and R160, and on a
string clear of KBSR it is one byte loop. -/

open Sys2Proof Sys2Proof.Machine Sys2Proof.Claims Sys2Proof.Proofs.Vocabulary Sys2Proof.Proofs.TrapSystem

namespace Sys2Proof.Proofs.StringRoutines

/-! ### What the routines write for a word -/

/-- `emit` writes the bytes that `bytes` gives for a word, one at a time. -/
def Emits (bytes : Word → List Byte) (emit : Word → State → Result Unit) : Prop :=
  ∀ w s, emit w s = termWriteEach (bytes w) s

theorem emits_emitLow : Emits putsBytes emitLow := by
  intro w s
  rw [putsBytes, termWriteEach_singleton, low_eq, emitLow]

theorem emits_emitPacked : Emits putspBytes emitPacked := by
  intro w s
  rw [emitPacked, putspBytes, high_eq, low_eq]
  by_cases hhigh : highByte w = 0x00#8
  · rw [if_pos hhigh, termWriteEach_singleton]
    cases termWrite (lowByte w) s with
    | stopped t => rfl
    | done x t => exact if_pos hhigh
  · rw [if_neg hhigh, termWriteEach]
    cases termWrite (lowByte w) s with
    | stopped t => rfl
    | done x t => exact (if_neg hhigh).trans (termWriteEach_singleton (highByte w) t).symm

/-! ### The walk and the loop -/

section
variable {bytes : Word → List Byte} {emit : Word → State → Result Unit} {held : Word → Routine}

theorem stringWalk_succ (n : Nat) (a : Word) (s : State) :
    stringWalk emit held (n + 1) a s = (memRead a s).andThen fun w t =>
      if w = 0x0000#16 then t else (emit w t).andThen fun _ u => stringWalk emit held n (a + 1) u := rfl

theorem stringWalk_of_passes (he : Emits bytes emit) {n : Nat} {a b : Word} {s u : State}
    (h : Passes bytes n a s b u) (m : Nat) : stringWalk emit held (n + m) a s = stringWalk emit held m b u := by
  induction h with
  | here a s => rw [Nat.zero_add]
  | word hread hw hwrite _ ih =>
    rw [Nat.succ_add, stringWalk_succ, hread, Result.andThen_done, if_neg hw, he, hwrite, Result.andThen_done]
    exact ih

theorem stringWalk_of_endsAt (he : Emits bytes emit) {a : Word} {s t : State} (h : EndsAt bytes a s t) (m : Nat) :
    stringWalk emit held (m + 1) a s = t := by
  rw [stringWalk_succ]
  cases h with
  | zeroWord hread => rw [hread, Result.andThen_done, if_pos rfl]
  | readRaises hread => rw [hread, Result.andThen_stopped]
  | writeRaises hread hw hwrite =>
    rw [hread, Result.andThen_done, if_neg hw, he, hwrite, Result.andThen_stopped]

theorem loopsAs_stringWalk (he : Emits bytes emit) (a : Word) (s : State) :
    LoopsAs bytes held a s (.next (stringWalk emit held memoryWords a s)) := by
  refine ⟨fun n b u t hn hpasses hends => ?_, fun b u hpasses => ?_⟩
  · have hlap : memoryWords = n + (65535 - n + 1) := by
      unfold memoryWords
      omega
    rw [hlap, stringWalk_of_passes he hpasses, stringWalk_of_endsAt he hends]
  · have hlap : memoryWords = 65536 + 0 := rfl
    rw [hlap, stringWalk_of_passes he hpasses]
    rfl

/-! ### Strings clear of KBSR -/

/-- Writing one list of bytes after another. -/
theorem termWriteEach_append (xs ys : List Byte) (s : State) (k : State → State) :
    (termWriteEach (xs ++ ys) s).andThen (fun _ t => k t) =
      (termWriteEach xs s).andThen fun _ t => (termWriteEach ys t).andThen fun _ u => k u := by
  induction xs generalizing s with
  | nil => rfl
  | cons x xs ih =>
    simp only [List.cons_append, termWriteEach]
    cases termWrite x s with
    | done y t => exact ih t
    | stopped t => rfl

/-- A completed byte loop leaves memory. -/
theorem mem_of_termWriteEach {bs : List Byte} {s t : State} (h : termWriteEach bs s = .done () t) : t.mem = s.mem := by
  induction bs generalizing s with
  | nil =>
    cases h
    rfl
  | cons b rest ih =>
    rw [termWriteEach] at h
    rcases termWrite_cases b s with ⟨-, hw⟩ | ⟨-, hw⟩
    · rw [hw] at h
      cases h
    · rw [hw] at h
      exact ih (s := { s.takeMove with out := s.out ++ [b] }) h

theorem stringAt_of_mem_eq {s t : State} {a : Word} {ws : List Word} (hmem : t.mem = s.mem) (h : StringAt s a ws) :
    StringAt t a ws := by
  rw [StringAt, hmem]
  exact h

/-- The head of a string and, from the next address on, its tail. -/
theorem stringAt_cons {s : State} {a w : Word} {ws : List Word} (h : StringAt s a (w :: ws)) :
    (w ≠ 0x0000#16 ∧ a ≠ 0xFE00#16 ∧ s.mem.read a = w) ∧ StringAt s (a + 1) ws := by
  obtain ⟨hlength, hcells, hend, hzero⟩ := h
  have haddr (i : Nat) : a + BitVec.ofNat 16 (i + 1) = a + 1 + BitVec.ofNat 16 i := by
    rw [Nat.add_comm, BitVec.ofNat_add, ← BitVec.add_assoc]
    rfl
  refine ⟨?_, (Nat.lt_succ_self _).trans hlength, fun i v hv => ?_, ?_, ?_⟩
  · have hfirst := hcells 0 w rfl
    simpa only [BitVec.ofNat_eq_ofNat, BitVec.add_zero] using hfirst
  · rw [← haddr]
    exact hcells (i + 1) v hv
  · rw [← haddr]
    exact hend
  · rw [← haddr]
    exact hzero

/-- The walk over a string, with a word to spare for its end, is one loop over the bytes of its words. -/
theorem stringWalk_of_stringAt (he : Emits bytes emit) {ws : List Word} {a : Word} {s : State}
    (h : StringAt s a ws) (m : Nat) :
    stringWalk emit held (ws.length + (m + 1)) a s = (termWriteEach (ws.flatMap bytes) s).andThen fun _ t => t := by
  induction ws generalizing a s with
  | nil =>
    obtain ⟨-, -, hend, hzero⟩ := h
    simp only [List.length_nil, BitVec.add_zero] at hend hzero
    rw [List.length_nil, Nat.zero_add, stringWalk_succ, memRead_of_ne hend, Result.andThen_done, if_pos hzero]
    rfl
  | cons w ws ih =>
    obtain ⟨⟨hw, hne, hread⟩, htail⟩ := stringAt_cons h
    rw [List.length_cons, Nat.succ_add, stringWalk_succ, memRead_of_ne hne, Result.andThen_done, hread, if_neg hw, he,
      List.flatMap_cons, termWriteEach_append]
    cases hwrite : termWriteEach (bytes w) s with
    | stopped t => rfl
    | done x t => exact ih (stringAt_of_mem_eq (mem_of_termWriteEach hwrite) htail)

theorem writesThen_stringWalk (he : Emits bytes emit) {ws : List Word} {a : Word} {s : State} (h : StringAt s a ws) :
    WritesThen (ws.flatMap bytes) s id (.next (stringWalk emit held memoryWords a s)) := by
  have hlap : memoryWords = ws.length + (65535 - ws.length + 1) := by
    have hlength : ws.length < 65536 := h.1
    unfold memoryWords
    omega
  rw [hlap, stringWalk_of_stringAt he h]
  exact writesThen_termWriteEach (ws.flatMap bytes) s id

end

/-! ### The statements -/

theorem exec_trapPuts (s : State) : exec .trapPuts s =
    .next (stringWalk emitLow .puts memoryWords (s.reg .r0) (linked s)) := rfl

theorem exec_trapPutsp (s : State) : exec .trapPutsp s =
    .next (stringWalk emitPacked .putsp memoryWords (s.reg .r0) (linked s)) := rfl

/-- Settles O42: PUTS is the walk from R0 after the link, which leaves R0. -/
theorem putsFollowsItsLoop : Obligations.PutsFollowsItsLoop := by
  refine ⟨fun _ hop hv => decode_of_vector hop hv, fun s => ?_⟩
  rw [exec_trapPuts]
  exact loopsAs_stringWalk emits_emitLow _ _

/-- Settles O45: as O42. -/
theorem putspFollowsItsLoop : Obligations.PutspFollowsItsLoop := by
  refine ⟨fun _ hop hv => decode_of_vector hop hv, fun s => ?_⟩
  rw [exec_trapPutsp]
  exact loopsAs_stringWalk emits_emitPacked _ _

/-- Settles O43: the link leaves memory, so the string stands there when the walk begins. -/
theorem putsWritesTheString : Obligations.PutsWritesTheString := by
  intro s ws h
  rw [exec_trapPuts]
  exact writesThen_stringWalk emits_emitLow (stringAt_of_mem_eq (s := s) rfl h)

/-- Settles O46: as O43. -/
theorem putspWritesThePackedString : Obligations.PutspWritesThePackedString := by
  intro s ws h
  rw [exec_trapPutsp]
  exact writesThen_stringWalk emits_emitPacked (stringAt_of_mem_eq (s := s) rfl h)

/-- Settles O21: a resumed walk is the walk itself, from the address it was held at. -/
theorem heldWalkGoesOnWithItsLoop : Obligations.HeldWalkGoesOnWithItsLoop := by
  refine fun s a hrun => ⟨fun hx => ?_, fun hx => ?_⟩
  · rw [step_of_held hrun hx]
    exact loopsAs_stringWalk emits_emitLow a { s with routine := none }
  · rw [step_of_held hrun hx]
    exact loopsAs_stringWalk emits_emitPacked a { s with routine := none }

end Sys2Proof.Proofs.StringRoutines
end
